-- ==== Sys2Proof/Word.lean ====
section
/-! DEFINITION. The word types of the y86-rs instruction-cycle block (spec 00_scope.md rules R9 and R10):
the 64-bit word, the byte, the nibble, and the index that a register field holds. -/

namespace Sys2Proof

/-- A 64-bit word, bit 0 the least significant (R10). Register values, valA to valP and the pc are words.
The integer `sint(w)` of R10 is `BitVec.toInt w`, and `uint(w)` is `BitVec.toNat w`. -/
abbrev Word := BitVec 64

/-- An 8-bit memory byte (R200). -/
abbrev Byte := BitVec 8

/-- A 4-bit field of an instruction byte, as its value 0 to 15 (R10, R300). -/
abbrev Nibble := Fin 16

/-- What a register field can hold, 0 to 15 (R307). Indices 0 to 14 name the general registers,
and 15 names none (R101, R102). -/
abbrev RegIdx := Fin 16

/-- The number of general registers, `NREGS` of R9. -/
abbrev numRegs : Nat := 15

end Sys2Proof
end

