-- ==== Sys2Proof/Config.lean ====
section
/-! DEFINITION. What one implementation of the block fixes (spec 00_scope.md rule R9). The spec leaves one
parameter open, MEM_SIZE. So that every claim holds for every legal size, MEM_SIZE is the field `memSize` of
State and no instruction changes it; this file gives its legal range and the one size `State.reset` takes.
The spec leaves no result, flag or register value open, so the model needs no free value. -/

namespace Sys2Proof.Config

/-- The least legal MEM_SIZE (R201). -/
def minMemSize : Nat := 1

/-- The greatest legal MEM_SIZE, 2^62 (R201). It keeps every address sum inside the signed 64-bit range. -/
def maxMemSize : Nat := 2 ^ 62

/-- The MEM_SIZE of `State.reset`. DESIGN CHOICE (notes/assumptions/1.md): the spec leaves MEM_SIZE open,
and this is the size its test vectors use (95_test_vectors.md). Unsafe for a claim that reads this number. -/
def resetMemSize : Nat := 0x1000

/-- What an address that memory does not list reads as: 0, the reset contents of every byte (R114, R700). -/
def unlistedByte : Byte := 0

/-- The pc after reset, and so the entry point (R114, R701). -/
def resetPc : Word := 0

end Sys2Proof.Config
end

