-- ==== Sys2Proof/Syntax.lean ====
section
/-! DEFINITION. The instructions as syntax (spec 30_encoding.md rules R301, R302, R303, R307 and R321): one
constructor of `Instr` per row of spec/opcode_table.json, each carrying exactly the operand fields that
instruction uses. Beside it stand the condition predicates, the ALU operations, the twelve instruction classes,
the error kinds and the register names. -/

namespace Sys2Proof

/-- The error kinds the core raises (R600). The loader's `MalformedInput` is not one of them (R109). -/
inductive CoreError where
  /-- ADR: a memory or register index outside its fixed range (R601). -/
  | addressOutOfBounds
  /-- INS: an opcode or function nibble with no defined mapping (R602). -/
  | invalidEncoding
deriving DecidableEq, Repr

/-- The condition predicates, in the order of R302. The names `ge` and `g` are the source's labels:
what each predicate computes is R412's expression, not the comparison the name suggests. -/
inductive Cond where
  | always | le | l | e | ne | ge | g
deriving DecidableEq, Repr

/-- The ALU operations, in the order of R303. -/
inductive AluFun where
  | add | sub | and | xor
deriving DecidableEq, Repr

/-- The twelve instruction classes, in the order of R301. The stage tables of 40_cycle.md are indexed by class. -/
inductive IClass where
  | halt | nop | cmov | irmov | rmmov | mrmov | op | jump | call | ret | push | pop
deriving DecidableEq, Repr

/-- An instruction with its operand fields (R307, R308, R321). Ignored nibbles are no fields of it (R304, R307). -/
inductive Instr where
  /-- `halt` (R450). -/
  | halt
  /-- `nop` (R451). -/
  | nop
  /-- `rrmovq rA, rB` (R461). -/
  | rrmovq (rA rB : RegIdx)
  /-- `cmovle rA, rB` (R462). -/
  | cmovle (rA rB : RegIdx)
  /-- `cmovl rA, rB` (R463). -/
  | cmovl (rA rB : RegIdx)
  /-- `cmove rA, rB` (R464). -/
  | cmove (rA rB : RegIdx)
  /-- `cmovne rA, rB` (R465). -/
  | cmovne (rA rB : RegIdx)
  /-- `cmovge rA, rB` (R466). -/
  | cmovge (rA rB : RegIdx)
  /-- `cmovg rA, rB` (R467). -/
  | cmovg (rA rB : RegIdx)
  /-- `irmovq $V, rB` (R470). -/
  | irmovq (rB : RegIdx) (v : Word)
  /-- `rmmovq rA, D(rB)` (R471). -/
  | rmmovq (rA rB : RegIdx) (d : Word)
  /-- `mrmovq D(rB), rA` (R472). -/
  | mrmovq (rA rB : RegIdx) (d : Word)
  /-- `addq rA, rB` (R501). -/
  | addq (rA rB : RegIdx)
  /-- `subq rA, rB` (R502). -/
  | subq (rA rB : RegIdx)
  /-- `andq rA, rB` (R503). -/
  | andq (rA rB : RegIdx)
  /-- `xorq rA, rB` (R504). -/
  | xorq (rA rB : RegIdx)
  /-- `jmp Dest` (R531). -/
  | jmp (dest : Word)
  /-- `jle Dest` (R532). -/
  | jle (dest : Word)
  /-- `jl Dest` (R533). -/
  | jl (dest : Word)
  /-- `je Dest` (R534). -/
  | je (dest : Word)
  /-- `jne Dest` (R535). -/
  | jne (dest : Word)
  /-- `jge Dest` (R536). -/
  | jge (dest : Word)
  /-- `jg Dest` (R537). -/
  | jg (dest : Word)
  /-- `call Dest` (R540). -/
  | call (dest : Word)
  /-- `ret` (R541). -/
  | ret
  /-- `pushq rA` (R570). -/
  | pushq (rA : RegIdx)
  /-- `popq rA` (R571). -/
  | popq (rA : RegIdx)
deriving DecidableEq, Repr

/-! The register names of R101. The spec takes the numbering from general knowledge (decision D2). -/

/-- `%rax` (R101). -/
def rax : RegIdx := 0
/-- `%rcx` (R101). -/
def rcx : RegIdx := 1
/-- `%rdx` (R101). -/
def rdx : RegIdx := 2
/-- `%rbx` (R101). -/
def rbx : RegIdx := 3
/-- `%rsp` (R101, R103). -/
def rsp : RegIdx := 4
/-- `%rbp` (R101). -/
def rbp : RegIdx := 5
/-- `%rsi` (R101). -/
def rsi : RegIdx := 6
/-- `%rdi` (R101). -/
def rdi : RegIdx := 7
/-- `%r8` (R101). -/
def r8 : RegIdx := 8
/-- `%r9` (R101). -/
def r9 : RegIdx := 9
/-- `%r10` (R101). -/
def r10 : RegIdx := 10
/-- `%r11` (R101). -/
def r11 : RegIdx := 11
/-- `%r12` (R101). -/
def r12 : RegIdx := 12
/-- `%r13` (R101). -/
def r13 : RegIdx := 13
/-- `%r14` (R101). -/
def r14 : RegIdx := 14

end Sys2Proof
end

