-- ==== Sys2Proof/WellFormed.lean ====
section
/-! DEFINITION. When an instruction is well formed: every register field it uses names one of the fifteen registers
(spec 10_state.md rule R102, 30_encoding.md rule R307). A used field that holds 15 still decodes (R307); it fails
when a stage uses it, so the decoder and exec cover the ill-formed instructions as well. -/

namespace Sys2Proof

/-- The field names a general register: its index is not 15 (R101, R102). -/
def RegIdx.named (r : RegIdx) : Bool := decide (r.val < numRegs)

/-- Every register field the instruction uses (R307's table) names a register. -/
def Instr.wf : Instr → Bool
  | .halt => true
  | .nop => true
  | .rrmovq rA rB => RegIdx.named rA && RegIdx.named rB
  | .cmovle rA rB => RegIdx.named rA && RegIdx.named rB
  | .cmovl rA rB => RegIdx.named rA && RegIdx.named rB
  | .cmove rA rB => RegIdx.named rA && RegIdx.named rB
  | .cmovne rA rB => RegIdx.named rA && RegIdx.named rB
  | .cmovge rA rB => RegIdx.named rA && RegIdx.named rB
  | .cmovg rA rB => RegIdx.named rA && RegIdx.named rB
  | .irmovq rB _ => RegIdx.named rB
  | .rmmovq rA rB _ => RegIdx.named rA && RegIdx.named rB
  | .mrmovq rA rB _ => RegIdx.named rA && RegIdx.named rB
  | .addq rA rB => RegIdx.named rA && RegIdx.named rB
  | .subq rA rB => RegIdx.named rA && RegIdx.named rB
  | .andq rA rB => RegIdx.named rA && RegIdx.named rB
  | .xorq rA rB => RegIdx.named rA && RegIdx.named rB
  | .jmp _ => true
  | .jle _ => true
  | .jl _ => true
  | .je _ => true
  | .jne _ => true
  | .jge _ => true
  | .jg _ => true
  | .call _ => true
  | .ret => true
  | .pushq rA => RegIdx.named rA
  | .popq rA => RegIdx.named rA

end Sys2Proof
end

