-- ==== Sys2Proof/Decode.lean ====
section
/-! DEFINITION. The instruction decoder and, after it, the encoder (spec 30_encoding.md). The decoder reads the list of
bytes that lie at the pc inside memory and makes the checks of rule R320 in the order written there. It is total: it
answers an instruction, `addressOutOfBounds` (a needed byte lies past the end of memory) or `invalidEncoding`. -/

namespace Sys2Proof

/-! Bit fields and byte order. -/

/-- `b[7:4]` (R300, R307). -/
def hiNibble (b : Byte) : Nibble := ⟨b.toNat / 16, by have := b.isLt; omega⟩

/-- `b[3:0]` (R300, R307). -/
def loNibble (b : Byte) : Nibble := ⟨b.toNat % 16, by omega⟩

/-- The byte whose high nibble is `hi` and whose low nibble is `lo` (R305). -/
def pair (hi lo : Nibble) : Byte := BitVec.ofNat 8 (16 * hi.val + lo.val)

/-- `w[8i+7:8i]`, byte i of a word counted from the least significant (R204, R206). -/
def byteOf (w : Word) (i : Nat) : Byte := w.extractLsb' (8 * i) 8

/-- The eight bytes of a word, least significant first: the order in memory and in an immediate (R204, R308). -/
def leBytes (w : Word) : List Byte :=
  [byteOf w 0, byteOf w 1, byteOf w 2, byteOf w 3, byteOf w 4, byteOf w 5, byteOf w 6, byteOf w 7]

/-- `b7 ++ b6 ++ b5 ++ b4 ++ b3 ++ b2 ++ b1 ++ b0`: the word whose byte at the lowest address is `b0` (R204, R205). -/
def leWord (b0 b1 b2 b3 b4 b5 b6 b7 : Byte) : Word :=
  b7 ++ b6 ++ b5 ++ b4 ++ b3 ++ b2 ++ b1 ++ b0

/-! The code tables. The numbers are the spec's decision D1. -/

/-- R301: the opcode nibble to its class; 0xC to 0xF have none. -/
def IClass.ofCode (icode : Nibble) : Option IClass :=
  match icode.val with
  | 0x0 => some .halt
  | 0x1 => some .nop
  | 0x2 => some .cmov
  | 0x3 => some .irmov
  | 0x4 => some .rmmov
  | 0x5 => some .mrmov
  | 0x6 => some .op
  | 0x7 => some .jump
  | 0x8 => some .call
  | 0x9 => some .ret
  | 0xA => some .push
  | 0xB => some .pop
  | _ => none

/-- R302: the condition function codes of icode 0x2 and 0x7; 0x7 to 0xF have none. -/
def Cond.ofCode (ifun : Nibble) : Option Cond :=
  match ifun.val with
  | 0x0 => some .always
  | 0x1 => some .le
  | 0x2 => some .l
  | 0x3 => some .e
  | 0x4 => some .ne
  | 0x5 => some .ge
  | 0x6 => some .g
  | _ => none

/-- R303: the ALU function codes of icode 0x6; 0x4 to 0xF have none. -/
def AluFun.ofCode (ifun : Nibble) : Option AluFun :=
  match ifun.val with
  | 0x0 => some .add
  | 0x1 => some .sub
  | 0x2 => some .and
  | 0x3 => some .xor
  | _ => none

/-- R306: the length of an instruction in bytes is a function of its class alone. -/
def IClass.length : IClass → Nat
  | .halt | .nop | .ret => 1
  | .cmov | .op | .push | .pop => 2
  | .jump | .call => 9
  | .irmov | .rmmov | .mrmov => 10

/-- The function nibble has a mapping in the class, or the class ignores it (R304, R310). -/
def IClass.takesFun (c : IClass) (ifun : Nibble) : Bool :=
  match c with
  | .cmov | .jump => (Cond.ofCode ifun).isSome
  | .op => (AluFun.ofCode ifun).isSome
  | .halt | .nop | .irmov | .rmmov | .mrmov | .call | .ret | .push | .pop => true

/-- The class has a register-pair byte: formats F2 and F10 (R305). -/
def IClass.hasRegByte : IClass → Bool
  | .cmov | .irmov | .rmmov | .mrmov | .op | .push | .pop => true
  | .halt | .nop | .jump | .call | .ret => false

/-- The instruction fields that R320 returns, the length `len` among them (R113, `ilen` of R322), but for valP, which
`Machine.valP` computes from the pc and the length. -/
structure Fields where
  icode : IClass
  ifun : Nibble
  rA : RegIdx
  rB : RegIdx
  valC : Word
  len : Nat
deriving DecidableEq, Repr

/-- The word in the eight bytes that start at index k of the list (R308); a missing byte counts as 0, and
`decodeFields` asks for the immediate only after it has found every byte present. -/
def immediateAt (bs : List Byte) (k : Nat) : Word :=
  leWord (bs.getD k 0) (bs.getD (k + 1) 0) (bs.getD (k + 2) 0) (bs.getD (k + 3) 0)
    (bs.getD (k + 4) 0) (bs.getD (k + 5) 0) (bs.getD (k + 6) 0) (bs.getD (k + 7) 0)

/-- valC per format: F10 takes bytes 2 to 9, F9 bytes 1 to 8, F1 and F2 have 0 (R308). -/
def immediateOf (c : IClass) (bs : List Byte) : Word :=
  match c with
  | .irmov | .rmmov | .mrmov => immediateAt bs 2
  | .jump | .call => immediateAt bs 1
  | .halt | .nop | .cmov | .op | .ret | .push | .pop => 0

/-- R320 on the bytes that lie at the pc inside memory (none when the pc is not a valid memory index): first the pc
bound, then the opcode nibble, then the function nibble, then the remaining bytes. -/
def decodeFields (bs : List Byte) : Except CoreError Fields :=
  match bs with
  | [] => .error .addressOutOfBounds
  | b0 :: _ =>
    match IClass.ofCode (hiNibble b0) with
    | none => .error .invalidEncoding
    | some c =>
      if c.takesFun (loNibble b0) then
        if bs.length < c.length then .error .addressOutOfBounds
        else .ok {
          icode := c
          ifun := loNibble b0
          rA := if c.hasRegByte then hiNibble (bs.getD 1 0) else 15
          rB := if c.hasRegByte then loNibble (bs.getD 1 0) else 15
          valC := immediateOf c bs
          len := c.length }
      else .error .invalidEncoding

/-- The conditional moves, one constructor per condition (R302). -/
def Instr.cmov (c : Cond) (rA rB : RegIdx) : Instr :=
  match c with
  | .always => .rrmovq rA rB
  | .le => .cmovle rA rB
  | .l => .cmovl rA rB
  | .e => .cmove rA rB
  | .ne => .cmovne rA rB
  | .ge => .cmovge rA rB
  | .g => .cmovg rA rB

/-- The jumps, one constructor per condition (R302). -/
def Instr.jump (c : Cond) (dest : Word) : Instr :=
  match c with
  | .always => .jmp dest
  | .le => .jle dest
  | .l => .jl dest
  | .e => .je dest
  | .ne => .jne dest
  | .ge => .jge dest
  | .g => .jg dest

/-- The arithmetic and logic operations, one constructor per ALU operation (R303). -/
def Instr.op (f : AluFun) (rA rB : RegIdx) : Instr :=
  match f with
  | .add => .addq rA rB
  | .sub => .subq rA rB
  | .and => .andq rA rB
  | .xor => .xorq rA rB

/-- R321: the fields as the closed sum type. A function nibble with no mapping is an explicit error. -/
def Fields.toInstr (f : Fields) : Except CoreError Instr :=
  match f.icode with
  | .halt => .ok .halt
  | .nop => .ok .nop
  | .cmov =>
    match Cond.ofCode f.ifun with
    | some c => .ok (.cmov c f.rA f.rB)
    | none => .error .invalidEncoding
  | .irmov => .ok (.irmovq f.rB f.valC)
  | .rmmov => .ok (.rmmovq f.rA f.rB f.valC)
  | .mrmov => .ok (.mrmovq f.rA f.rB f.valC)
  | .op =>
    match AluFun.ofCode f.ifun with
    | some g => .ok (.op g f.rA f.rB)
    | none => .error .invalidEncoding
  | .jump =>
    match Cond.ofCode f.ifun with
    | some c => .ok (.jump c f.valC)
    | none => .error .invalidEncoding
  | .call => .ok (.call f.valC)
  | .ret => .ok .ret
  | .push => .ok (.pushq f.rA)
  | .pop => .ok (.popq f.rA)

/-- The decoder: the instruction at the head of the bytes, or the error of R320. -/
def decode (bs : List Byte) : Except CoreError Instr :=
  match decodeFields bs with
  | .ok f => f.toInstr
  | .error e => .error e

/-! The encoder (R305, R330). -/

/-- The class of an instruction (R301). -/
def Instr.iclass : Instr → IClass
  | .halt => .halt
  | .nop => .nop
  | .rrmovq _ _ | .cmovle _ _ | .cmovl _ _ | .cmove _ _ | .cmovne _ _ | .cmovge _ _ | .cmovg _ _ => .cmov
  | .irmovq _ _ => .irmov
  | .rmmovq _ _ _ => .rmmov
  | .mrmovq _ _ _ => .mrmov
  | .addq _ _ | .subq _ _ | .andq _ _ | .xorq _ _ => .op
  | .jmp _ | .jle _ | .jl _ | .je _ | .jne _ | .jge _ | .jg _ => .jump
  | .call _ => .call
  | .ret => .ret
  | .pushq _ => .push
  | .popq _ => .pop

/-- The length of an instruction in bytes (R306). -/
def Instr.length (i : Instr) : Nat := i.iclass.length

/-- The bytes of an instruction whose ignored function nibble is `f` and whose ignored register nibble is `r`
(R304, R305, R307). Where an instruction ignores neither, `f` and `r` are not used. -/
def encodeWith (f r : Nibble) (i : Instr) : List Byte :=
  match i with
  | .halt => [pair 0x0 f]
  | .nop => [pair 0x1 f]
  | .rrmovq rA rB => [pair 0x2 0x0, pair rA rB]
  | .cmovle rA rB => [pair 0x2 0x1, pair rA rB]
  | .cmovl rA rB => [pair 0x2 0x2, pair rA rB]
  | .cmove rA rB => [pair 0x2 0x3, pair rA rB]
  | .cmovne rA rB => [pair 0x2 0x4, pair rA rB]
  | .cmovge rA rB => [pair 0x2 0x5, pair rA rB]
  | .cmovg rA rB => [pair 0x2 0x6, pair rA rB]
  | .irmovq rB v => pair 0x3 f :: pair r rB :: leBytes v
  | .rmmovq rA rB d => pair 0x4 f :: pair rA rB :: leBytes d
  | .mrmovq rA rB d => pair 0x5 f :: pair rA rB :: leBytes d
  | .addq rA rB => [pair 0x6 0x0, pair rA rB]
  | .subq rA rB => [pair 0x6 0x1, pair rA rB]
  | .andq rA rB => [pair 0x6 0x2, pair rA rB]
  | .xorq rA rB => [pair 0x6 0x3, pair rA rB]
  | .jmp dest => pair 0x7 0x0 :: leBytes dest
  | .jle dest => pair 0x7 0x1 :: leBytes dest
  | .jl dest => pair 0x7 0x2 :: leBytes dest
  | .je dest => pair 0x7 0x3 :: leBytes dest
  | .jne dest => pair 0x7 0x4 :: leBytes dest
  | .jge dest => pair 0x7 0x5 :: leBytes dest
  | .jg dest => pair 0x7 0x6 :: leBytes dest
  | .call dest => pair 0x8 f :: leBytes dest
  | .ret => [pair 0x9 f]
  | .pushq rA => [pair 0xA f, pair rA r]
  | .popq rA => [pair 0xB f, pair rA r]

/-- The bytes an assembler emits: function nibble 0 where it is ignored, 0xF in an unused register field (R304, R307). -/
def encode (i : Instr) : List Byte := encodeWith 0x0 0xF i

/-! The opcode table's numbering of an instruction's bits: byte k is bits 8k+7 to 8k, byte 0 the byte at the pc. -/

/-- The ten bytes (the longest instruction) of a table word of `nbits` bits; every bit above them is 0. -/
def tableBytes (nbits w : Nat) : List Byte :=
  let v := w % 2 ^ nbits
  [BitVec.ofNat 8 v, BitVec.ofNat 8 (v / 2 ^ 8), BitVec.ofNat 8 (v / 2 ^ 16), BitVec.ofNat 8 (v / 2 ^ 24),
   BitVec.ofNat 8 (v / 2 ^ 32), BitVec.ofNat 8 (v / 2 ^ 40), BitVec.ofNat 8 (v / 2 ^ 48),
   BitVec.ofNat 8 (v / 2 ^ 56), BitVec.ofNat 8 (v / 2 ^ 64), BitVec.ofNat 8 (v / 2 ^ 72)]

/-- The instruction the decoder reads from a table word, none where it raises an error. -/
def decodeTableWord (nbits w : Nat) : Option Instr :=
  match decode (tableBytes nbits w) with
  | .ok i => some i
  | .error _ => none

end Sys2Proof
end

