-- ==== Sys2Proof/Machine/State.lean ====
section
/-! DEFINITION. The machine state of spec 10_state.md rule R100, as plain data, and its reset value (R114, R700).
MEM_SIZE, the one parameter the spec leaves open, is a field no instruction changes. -/

namespace Sys2Proof.Machine

/-- The reasons a step can end in a Host fault: none, so the type has no constructor. The spec describes what every
error of this hardware does (R434, R603): the machine goes to status Errored, which is a next state here.
Nobody raises a fault, so there is no safety to weigh. -/
inductive Fault where
deriving DecidableEq, Repr

/-- The reasons a step can end in a Host refusal. -/
inductive Refusal where
  /-- An instruction that has no meaning yet, by its mnemonic. Raised by no arm of `exec`: every instruction
  has its meaning. It would be safe: the model would stop where the hardware goes on. -/
  | notModelled (mnemonic : String)
deriving DecidableEq, Repr

/-- The run state (R108). -/
inductive Status where
  | running | halted | errored
deriving DecidableEq, Repr

/-- The condition flags S, Z and O (R107). There is no carry flag (90_conflicts.md C3). -/
structure Flags where
  sign : Bool
  zero : Bool
  overflow : Bool
deriving DecidableEq, Repr

/-- The fifteen general registers x[0] to x[14] (R101). -/
abbrev Regs := Vector Word numRegs

/-- Memory as (address, byte) pairs; an address it does not list reads as `Config.unlistedByte`. -/
abbrev Memory := List Host.Cell

/-- Addresses rise strictly from `lo` on, and no entry is the byte an unlisted address reads as. -/
def Memory.wfFrom (lo : Nat) : Memory → Bool
  | [] => true
  | (a, b) :: rest => decide (lo ≤ a) && decide (b ≠ Config.unlistedByte) && Memory.wfFrom (a + 1) rest

/-- The canonical form: equal memories are equal lists. -/
def Memory.wf (m : Memory) : Bool := Memory.wfFrom 0 m

/-- Every listed address lies below `n`. -/
def Memory.below (n : Nat) : Memory → Bool
  | [] => true
  | (a, _) :: rest => decide (a < n) && Memory.below n rest

/-- The machine state, MachineState of R100. -/
structure State where
  /-- MEM_SIZE (R201), the number of bytes of memory. -/
  memSize : Nat
  /-- `mem` (R100, R200). -/
  mem : Memory
  /-- `x[0..14]` (R101). -/
  regs : Regs
  /-- `S`, `Z`, `O` (R107). -/
  flags : Flags
  /-- `status` (R108). -/
  status : Status
  /-- `err` (R109): the error that ended the run, if one did. -/
  err : Option CoreError
  /-- `pc` (R105). -/
  pc : Word
  /-- `cycleCount` (R110): 64 bits, unsigned, wrapping. -/
  cycleCount : Word
deriving DecidableEq, Repr

/-- The reset state of a machine with `n` bytes of memory (R114, R700). The values of the registers, flags, pc and
cycleCount are the spec's decision D12 (notes/assumptions/2.md). -/
def State.resetOf (n : Nat) : State where
  memSize := n
  mem := []
  regs := Vector.replicate numRegs 0
  flags := { sign := false, zero := false, overflow := false }
  status := .running
  err := none
  pc := Config.resetPc
  cycleCount := 0

/-- The machine right after reset, for the memory size of notes/assumptions/1.md. -/
def State.reset : State := State.resetOf Config.resetMemSize

end Sys2Proof.Machine
end

