-- ==== Sys2Proof/Machine/Ops.lean ====
section
/-! DEFINITION. The named operations over memory and registers (spec 20_memory.md rules R203 to R206, 10_state.md
rule R102), raising an error (60_exceptions.md rule R604), the end of a cycle that commits (40_cycle.md rule R434),
and leaving a terminal state, which only reset does (R609, R700). -/

namespace Sys2Proof.Machine

/-- What a step of this machine answers. -/
abbrev StepOutcome := Host.Outcome State Fault Refusal

/-! Memory bytes. -/

/-- The byte at an address. -/
def Memory.get : Memory → Nat → Byte
  | [], _ => Config.unlistedByte
  | (a, b) :: rest, x => if a = x then b else Memory.get rest x

/-- Write one byte, keeping the canonical form: writing the byte an unlisted address reads as removes the entry. -/
def Memory.set : Memory → Nat → Byte → Memory
  | [], x, v => if v = Config.unlistedByte then [] else [(x, v)]
  | (a, b) :: rest, x, v =>
    if x < a then
      if v = Config.unlistedByte then (a, b) :: rest else (x, v) :: (a, b) :: rest
    else if x = a then
      if v = Config.unlistedByte then rest else (x, v) :: rest
    else (a, b) :: Memory.set rest x v

/-- Write bytes at consecutive addresses, the first at `a`. -/
def Memory.setBytes : Memory → Nat → List Byte → Memory
  | m, _, [] => m
  | m, a, b :: bs => Memory.setBytes (Memory.set m a b) (a + 1) bs

/-- The word whose lowest byte is at `a`: `mem[a+7] ++ … ++ mem[a]` (R205). -/
def Memory.getWord (m : Memory) (a : Nat) : Word :=
  leWord (m.get a) (m.get (a + 1)) (m.get (a + 2)) (m.get (a + 3))
    (m.get (a + 4)) (m.get (a + 5)) (m.get (a + 6)) (m.get (a + 7))

/-! Access primitives. Addresses are integers (R202). -/

/-- All 8 bytes `a` to `a + 7` are in bounds (R205, R206). -/
def wordInBounds (n : Nat) (a : Int) : Bool := decide (0 ≤ a) && decide (a + 8 ≤ n)

/-- `MemByte(a)` (R203). -/
def memByte (s : State) (a : Int) : Except CoreError Byte :=
  if 0 ≤ a ∧ a < s.memSize then .ok (s.mem.get a.toNat) else .error .addressOutOfBounds

/-- `MemRead(a, 8)` (R205). -/
def memRead (s : State) (a : Int) : Except CoreError Word :=
  if wordInBounds s.memSize a then .ok (s.mem.getWord a.toNat) else .error .addressOutOfBounds

/-- `MemWrite(a, 8, v)` (R206): the memory to be committed. The bounds check comes before any byte is written. -/
def memWrite (s : State) (a : Int) (v : Word) : Except CoreError Memory :=
  if wordInBounds s.memSize a then .ok (s.mem.setBytes a.toNat (leBytes v)) else .error .addressOutOfBounds

/-! Instruction fetch. -/

/-- At most `k` bytes from address `a` on, stopping at the end of memory. -/
def bytesFrom (s : State) : Nat → Nat → List Byte
  | _, 0 => []
  | a, k + 1 => if a < s.memSize then s.mem.get a :: bytesFrom s (a + 1) k else []

/-- The bytes at the pc that lie inside memory, at most the ten of the longest instruction. There are none when the pc
is not a valid memory index (R105). -/
def fetch (s : State) : List Byte :=
  if 0 ≤ s.pc.toInt then bytesFrom s s.pc.toInt.toNat 10 else []

/-- `Decode(mem, pc)` (R320, R401): it reads only memory and the pc. -/
def decodeAt (s : State) : Except CoreError Instr := decode (fetch s)

/-! Registers. -/

/-- Read `x[r]`; index 15 raises (R102, R405). -/
def readReg (s : State) (r : RegIdx) : Except CoreError Word :=
  if h : r.val < numRegs then .ok s.regs[r.val] else .error .addressOutOfBounds

/-- Write `x[r]`; index 15 raises (R102, R421). -/
def writeReg (x : Regs) (r : RegIdx) (v : Word) : Except CoreError Regs :=
  if h : r.val < numRegs then .ok (x.set r.val v) else .error .addressOutOfBounds

/-! Errors and commit. -/

/-- The state an error leaves (R434, R603, R604): status and err change and nothing else does. -/
def State.errorState (s : State) (e : CoreError) : State :=
  { s with status := .errored, err := some e }

/-- `raise E` (R604), the one way an exception is taken on this hardware. -/
def raise (s : State) (e : CoreError) : StepOutcome := .next (s.errorState e)

/-- Go on with the value a stage gives, or raise its error from the state at the start of the cycle. -/
def orRaise {α : Type} (s : State) (x : Except CoreError α) (k : α → StepOutcome) : StepOutcome :=
  match x with
  | .ok a => k a
  | .error e => raise s e

/-- `rst` (R435, R700): the reset state, from any state. It is the only way out of Halted and Errored (R609). -/
def State.assertReset (s : State) : State := State.resetOf s.memSize

/-- `valP`, the next sequential address, of an instruction of `len` bytes (R309). -/
def valP (s : State) (len : Nat) : Word := s.pc + BitVec.ofNat 64 len

/-- The end of a cycle that commits: the new pc (R430) and one more completed cycle (R433). -/
def State.retire (s : State) (pc : Word) : State :=
  { s with pc := pc, cycleCount := s.cycleCount + 1 }

end Sys2Proof.Machine
end

