-- ==== Sys2Proof/Machine/Operands.lean ====
section
/-! DEFINITION. The operand forms (spec 40_cycle.md rule R414, 10_state.md rule R103): the stack pointer, and the integer
addresses of the memory stage. Every address is an exact sum; one outside the signed 64-bit range is out of bounds. -/

namespace Sys2Proof.Machine

/-- `SP`, the stack pointer's index: 4, `%rsp` (R103; the spec's decision D2). -/
def SP : RegIdx := rsp

/-- The stack pointer's index names a register, so an implicit SP access never fails (R405). -/
theorem SP_named : SP.val < numRegs := by decide

/-- The stack delta (R9, R413). -/
def stackDelta : Word := 8

/-- D(rB) of rmmovq and mrmovq: `sint(valB) +ℤ sint(valC)` (R414). -/
def dispAddr (valB valC : Word) : Int := valB.toInt + valC.toInt

/-- The new stack slot of call and pushq: `sint(valB) -ℤ 8` (R414). -/
def pushAddr (valB : Word) : Int := valB.toInt - 8

/-- The old stack slot of ret and popq: `sint(valA)` (R414). -/
def popAddr (valA : Word) : Int := valA.toInt

end Sys2Proof.Machine
end

