-- ==== Sys2Proof/Machine/Flags.lean ====
section
/-! DEFINITION. The ALU with its flag derivation and the condition evaluator (spec 40_cycle.md rules R410 and R412). -/

namespace Sys2Proof.Machine

/-- The integer fits a signed 64-bit word (R410). -/
def fitsWord (x : Int) : Bool := decide (-2 ^ 63 ≤ x) && decide (x ≤ 2 ^ 63 - 1)

/-- The ALU result `r` of (aluB, aluA) in that operand order (R410). -/
def aluResult (f : AluFun) (aluB aluA : Word) : Word :=
  match f with
  | .add => aluB + aluA
  | .sub => aluB - aluA
  | .and => aluB &&& aluA
  | .xor => aluB ^^^ aluA

/-- `O'` (R410): the exact integer sum or difference does not fit; and and xor clear it. -/
def aluOverflow (f : AluFun) (aluB aluA : Word) : Bool :=
  match f with
  | .add => !fitsWord (aluB.toInt + aluA.toInt)
  | .sub => !fitsWord (aluB.toInt - aluA.toInt)
  | .and => false
  | .xor => false

/-- `S'`, `Z'` and `O'` (R410): S is bit 63 of the result, Z says that it is zero. -/
def aluFlags (f : AluFun) (aluB aluA : Word) : Flags where
  sign := (aluResult f aluB aluA).getLsbD 63
  zero := decide (aluResult f aluB aluA = 0)
  overflow := aluOverflow f aluB aluA

/-- `Cond(fn)` (R412), rows 5 and 6 exactly as the source gives them (90_conflicts.md C4). -/
def Flags.holds (f : Flags) (c : Cond) : Bool :=
  match c with
  | .always => true
  | .le => (f.sign ^^ f.overflow) || f.zero
  | .l => f.sign ^^ f.overflow
  | .e => f.zero
  | .ne => !f.zero
  | .ge => !(f.sign ^^ f.overflow) && !f.zero
  | .g => !(f.sign ^^ f.overflow)

end Sys2Proof.Machine
end

