-- ==== Sys2Proof/Machine/Alu.lean ====
section
/-! DEFINITION. The arithmetic and logic operations (spec 43_alu.md), the only instructions that write the flags. -/

namespace Sys2Proof.Machine

/-- `OPq rA, rB`, the common rule (R500): rB is the first operand and the destination. -/
def aluOp (f : AluFun) (rA rB : RegIdx) (s : State) : StepOutcome :=
  orRaise s (readReg s rA) fun valA =>
  orRaise s (readReg s rB) fun valB =>
  orRaise s (writeReg s.regs rB (aluResult f valB valA)) fun x =>
  .next ({ s with regs := x, flags := aluFlags f valB valA }.retire (valP s 2))

/-- `addq rA, rB` (R501). -/
def execAddq (rA rB : RegIdx) (s : State) : StepOutcome := aluOp .add rA rB s

/-- `subq rA, rB` (R502): the minuend is rB. -/
def execSubq (rA rB : RegIdx) (s : State) : StepOutcome := aluOp .sub rA rB s

/-- `andq rA, rB` (R503). -/
def execAndq (rA rB : RegIdx) (s : State) : StepOutcome := aluOp .and rA rB s

/-- `xorq rA, rB` (R504). -/
def execXorq (rA rB : RegIdx) (s : State) : StepOutcome := aluOp .xor rA rB s

end Sys2Proof.Machine
end

