-- ==== Sys2Proof/Machine/Control.lean ====
section
/-! DEFINITION. Control transfer (spec 44_control.md). A target is not checked here: a bad one fails at the next
decode (R106). -/

namespace Sys2Proof.Machine

/-- `jXX Dest`, the common rule of the seven jumps (R530). -/
def jumpIf (c : Cond) (dest : Word) (s : State) : StepOutcome :=
  .next (s.retire (if s.flags.holds c then dest else valP s 9))

/-- `jmp Dest` (R531). -/
def execJmp (dest : Word) (s : State) : StepOutcome := jumpIf .always dest s

/-- `jle Dest` (R532). -/
def execJle (dest : Word) (s : State) : StepOutcome := jumpIf .le dest s

/-- `jl Dest` (R533). -/
def execJl (dest : Word) (s : State) : StepOutcome := jumpIf .l dest s

/-- `je Dest` (R534). -/
def execJe (dest : Word) (s : State) : StepOutcome := jumpIf .e dest s

/-- `jne Dest` (R535). -/
def execJne (dest : Word) (s : State) : StepOutcome := jumpIf .ne dest s

/-- `jge Dest` (R536). -/
def execJge (dest : Word) (s : State) : StepOutcome := jumpIf .ge dest s

/-- `jg Dest` (R537). -/
def execJg (dest : Word) (s : State) : StepOutcome := jumpIf .g dest s

/-- `call Dest` (R540): the return address, valP, goes to the new stack slot. -/
def execCall (dest : Word) (s : State) : StepOutcome :=
  orRaise s (readReg s SP) fun valB =>
  orRaise s (memWrite s (pushAddr valB) (valP s 9)) fun m =>
  orRaise s (writeReg s.regs SP (valB - stackDelta)) fun x =>
  .next ({ s with mem := m, regs := x }.retire dest)

/-- `ret` (R541): the return address is read at the old SP. -/
def execRet (s : State) : StepOutcome :=
  orRaise s (readReg s SP) fun valA =>
  orRaise s (memRead s (popAddr valA)) fun valM =>
  orRaise s (writeReg s.regs SP (valA + stackDelta)) fun x =>
  .next ({ s with regs := x }.retire valM)

end Sys2Proof.Machine
end

