-- ==== Sys2Proof/Machine/HaltNop.lean ====
section
/-! DEFINITION. halt and nop (spec 41_halt_nop.md). -/

namespace Sys2Proof.Machine

/-- `halt` (R450, R430, R431): the pc stays at the halt's own address, and the cycle is counted (decision D11). -/
def execHalt (s : State) : StepOutcome :=
  .next ({ s with status := .halted }.retire s.pc)

/-- `nop` (R451). -/
def execNop (s : State) : StepOutcome := .next (s.retire (valP s 1))

end Sys2Proof.Machine
end

