-- ==== Sys2Proof/Machine/Moves.lean ====
section
/-! DEFINITION. The moves (spec 42_moves.md): conditional move, immediate load, store and load. -/

namespace Sys2Proof.Machine

/-- `cmovXX rA, rB`, the common rule of the seven conditional moves (R460). rB is written in either case. -/
def moveIf (c : Cond) (rA rB : RegIdx) (s : State) : StepOutcome :=
  orRaise s (readReg s rA) fun valA =>
  orRaise s (readReg s rB) fun valB =>
  orRaise s (writeReg s.regs rB (if s.flags.holds c then valA else valB)) fun x =>
  .next ({ s with regs := x }.retire (valP s 2))

/-- `rrmovq rA, rB` (R461). -/
def execRrmovq (rA rB : RegIdx) (s : State) : StepOutcome := moveIf .always rA rB s

/-- `cmovle rA, rB` (R462). -/
def execCmovle (rA rB : RegIdx) (s : State) : StepOutcome := moveIf .le rA rB s

/-- `cmovl rA, rB` (R463). -/
def execCmovl (rA rB : RegIdx) (s : State) : StepOutcome := moveIf .l rA rB s

/-- `cmove rA, rB` (R464). -/
def execCmove (rA rB : RegIdx) (s : State) : StepOutcome := moveIf .e rA rB s

/-- `cmovne rA, rB` (R465). -/
def execCmovne (rA rB : RegIdx) (s : State) : StepOutcome := moveIf .ne rA rB s

/-- `cmovge rA, rB` (R466). -/
def execCmovge (rA rB : RegIdx) (s : State) : StepOutcome := moveIf .ge rA rB s

/-- `cmovg rA, rB` (R467). -/
def execCmovg (rA rB : RegIdx) (s : State) : StepOutcome := moveIf .g rA rB s

/-- `irmovq $V, rB` (R470). -/
def execIrmovq (rB : RegIdx) (v : Word) (s : State) : StepOutcome :=
  orRaise s (writeReg s.regs rB v) fun x =>
  .next ({ s with regs := x }.retire (valP s 10))

/-- `rmmovq rA, D(rB)` (R471). -/
def execRmmovq (rA rB : RegIdx) (d : Word) (s : State) : StepOutcome :=
  orRaise s (readReg s rA) fun valA =>
  orRaise s (readReg s rB) fun valB =>
  orRaise s (memWrite s (dispAddr valB d) valA) fun m =>
  .next ({ s with mem := m }.retire (valP s 10))

/-- `mrmovq D(rB), rA` (R472): the base is read before the destination is written (R423). -/
def execMrmovq (rA rB : RegIdx) (d : Word) (s : State) : StepOutcome :=
  orRaise s (readReg s rB) fun valB =>
  orRaise s (memRead s (dispAddr valB d)) fun valM =>
  orRaise s (writeReg s.regs rA valM) fun x =>
  .next ({ s with regs := x }.retire (valP s 10))

end Sys2Proof.Machine
end

