-- ==== Sys2Proof/Machine/Stack.lean ====
section
/-! DEFINITION. Stack operations (spec 45_stack.md). -/

namespace Sys2Proof.Machine

/-- `pushq rA` (R570): valA is read before SP changes, so `pushq %rsp` stores the old SP (R423). -/
def execPushq (rA : RegIdx) (s : State) : StepOutcome :=
  orRaise s (readReg s rA) fun valA =>
  orRaise s (readReg s SP) fun valB =>
  orRaise s (memWrite s (pushAddr valB) valA) fun m =>
  orRaise s (writeReg s.regs SP (valB - stackDelta)) fun x =>
  .next ({ s with mem := m, regs := x }.retire (valP s 2))

/-- `popq rA` (R571): port E writes SP first and port M writes rA second, so `popq %rsp` leaves the loaded word
(R422, decision D10). A failing port-M write leaves SP as it was (R421). -/
def execPopq (rA : RegIdx) (s : State) : StepOutcome :=
  orRaise s (readReg s SP) fun valA =>
  orRaise s (memRead s (popAddr valA)) fun valM =>
  orRaise s (writeReg s.regs SP (valA + stackDelta)) fun xE =>
  orRaise s (writeReg xE rA valM) fun xM =>
  .next ({ s with regs := xM }.retire (valP s 2))

end Sys2Proof.Machine
end

