-- ==== Sys2Proof/Machine/Step.lean ====
section
/-! DEFINITION. One step of the block (spec 40_cycle.md rules R400, R401, R432, R434): one whole cycle while Running,
and no change in a terminal state. -/

namespace Sys2Proof.Machine

/-- While Running, decode at the pc and run the instruction, or raise the decode error. Halted and Errored are
terminal: a step leaves every piece of state unchanged (R432). -/
def step (s : State) : Host.Outcome State Fault Refusal :=
  match s.status with
  | .running =>
    match decodeAt s with
    | .ok i => exec i s
    | .error e => raise s e
  | .halted => .next s
  | .errored => .next s

/-- The state with a table word's instruction stored at the pc, where `step` fetches. Bytes past the end of memory do
not exist and are not stored. A step fetches only while Running, so status and err are those of a running machine;
in a running state, as after reset, only memory changes. It stands for the host's load (R710; notes/assumptions/3.md). -/
def State.withFetchWord (s : State) (nbits w : Nat) : State :=
  { s with
    mem := s.mem.setBytes s.pc.toNat ((tableBytes nbits w).take (s.memSize - s.pc.toNat))
    status := .running
    err := none }

end Sys2Proof.Machine
end

