-- ==== Sys2Proof/Machine/Loader.lean ====
section
/-! DEFINITION. The program loader's boundary (spec 70_reset_and_hazards.md rule R710): text lines of the form
`0xADDR: HEXBYTES|...`, written into memory while `rst` is held. A line is a list of characters. The choices R710
leaves open are notes/assumptions/12.md. -/

namespace Sys2Proof.Machine

/-- What the loader reports to the host for a line. `malformedInput` never enters the core's `err` (R109, R600). -/
inductive LoadReport where
  | loaded | skipped | malformedInput
deriving DecidableEq, Repr

/-- The value of a hexadecimal digit, either case. -/
def hexDigit (c : Char) : Option Nat :=
  let n := c.toNat
  if 48 ≤ n ∧ n ≤ 57 then some (n - 48)
  else if 97 ≤ n ∧ n ≤ 102 then some (n - 87)
  else if 65 ≤ n ∧ n ≤ 70 then some (n - 55)
  else none

/-- The digits read on after the value `acc`. -/
def hexDigitsFrom (acc : Nat) : List Char → Option Nat
  | [] => some acc
  | c :: cs =>
    match hexDigit c with
    | some d => hexDigitsFrom (16 * acc + d) cs
    | none => none

/-- ADDR, a hexadecimal byte offset of at least one digit. -/
def hexNumber (cs : List Char) : Option Nat :=
  match cs with
  | [] => none
  | _ => hexDigitsFrom 0 cs

/-- HEXBYTES: byte k goes to ADDR + k, in order, until the first malformed pair or the first address at or past
MEM_SIZE; the rest of the line is dropped (D21). -/
def loadHexBytes (n : Nat) (m : Memory) (a : Nat) : List Char → Memory × LoadReport
  | [] => (m, .loaded)
  | [_] => (m, .malformedInput)
  | c :: d :: rest =>
    match hexDigit c, hexDigit d with
    | some h, some l =>
      if a < n then loadHexBytes n (m.set a (BitVec.ofNat 8 (16 * h + l))) (a + 1) rest
      else (m, .malformedInput)
    | _, _ => (m, .malformedInput)

/-- The characters without the spaces around them. -/
def trimSpaces (cs : List Char) : List Char :=
  ((cs.dropWhile (· == ' ')).reverse.dropWhile (· == ' ')).reverse

/-- The part of a line after `0x` and before `|`. -/
def loadBody (n : Nat) (m : Memory) (body : List Char) : Memory × LoadReport :=
  match hexNumber (body.takeWhile (· != ':')), body.dropWhile (· != ':') with
  | some a, _ :: bytes => loadHexBytes n m a (trimSpaces bytes)
  | _, _ => (m, .malformedInput)

/-- One line; a line that does not begin with `0x` is skipped. -/
def loadLine (n : Nat) (m : Memory) (line : List Char) : Memory × LoadReport :=
  match line with
  | c0 :: c1 :: rest =>
    if c0 = '0' ∧ c1 = 'x' then loadBody n m (rest.takeWhile (· != '|')) else (m, .skipped)
  | _ => (m, .skipped)

/-- The lines of an image in order; each loads whatever became of the others, and a later one overwrites (D21). -/
def loadImage (n : Nat) (m : Memory) : List (List Char) → Memory × List LoadReport
  | [] => (m, [])
  | line :: rest =>
    let r := loadLine n m line
    let q := loadImage n r.1 rest
    (q.1, r.2 :: q.2)

end Sys2Proof.Machine
end

