-- ==== Sys2Proof/Machine/Stages.lean ====
section
/-! DEFINITION. The cycle as spec 40_cycle.md gives it: stages that pass a CycleScratch record along, each a table
indexed by class, and one commit at the end. The instruction rules of 41_halt_nop.md to 45_stack.md, which `exec`
follows, are written apart from these tables; "the two must agree", and the obligations say that they do.
`stepByStages` never builds an `Instr`. -/

namespace Sys2Proof.Machine

/-- CycleScratch (R113): created fresh each cycle with every value 0 and `cnd` false, and carried nowhere.
It is not part of the machine state. -/
structure Scratch where
  ins : Fields
  valP : Word
  valA : Word := 0
  valB : Word := 0
  valE : Word := 0
  valM : Word := 0
  cnd : Bool := false
deriving DecidableEq, Repr

/-- Decode stage (R401, R320, R309). -/
def decodeStage (s : State) : Except CoreError Scratch :=
  match decodeFields (fetch s) with
  | .ok f => .ok { ins := f, valP := valP s f.len }
  | .error e => .error e

/-- srcA (R404); `none` is NONE. -/
def srcA (f : Fields) : Option RegIdx :=
  match f.icode with
  | .cmov | .rmmov | .op | .push => some f.rA
  | .ret | .pop => some SP
  | .halt | .nop | .irmov | .mrmov | .jump | .call => none

/-- srcB (R404). -/
def srcB (f : Fields) : Option RegIdx :=
  match f.icode with
  | .cmov | .rmmov | .mrmov | .op => some f.rB
  | .call | .ret | .push | .pop => some SP
  | .halt | .nop | .irmov | .jump => none

/-- A read port of the register file (R403): an unread port gives 0, index 15 raises (R405). -/
def readPort (s : State) (src : Option RegIdx) : Except CoreError Word :=
  match src with
  | none => .ok 0
  | some r => readReg s r

/-- Operand-read stage (R404, R405). -/
def operandReadStage (s : State) (c : Scratch) : Except CoreError Scratch :=
  match readPort s (srcA c.ins), readPort s (srcB c.ins) with
  | .ok a, .ok b => .ok { c with valA := a, valB := b }
  | .error e, _ => .error e
  | .ok _, .error e => .error e

/-- The condition a class evaluates: that of its function nibble for cmov and jump, false elsewhere (R412, R413, D20).
A function nibble with no predicate raises; the decoder raises it first (R311). -/
def condStage (s : State) (f : Fields) : Except CoreError Bool :=
  match f.icode with
  | .cmov | .jump =>
    match Cond.ofCode f.ifun with
    | some c => .ok (s.flags.holds c)
    | none => .error .invalidEncoding
  | .halt | .nop | .irmov | .rmmov | .mrmov | .op | .call | .ret | .push | .pop => .ok false

/-- valE (R413), given the cycle's `cnd`. -/
def execValE (c : Scratch) (cnd : Bool) : Word :=
  match c.ins.icode with
  | .halt | .nop => 0
  | .cmov => if cnd then c.valA else c.valB
  | .irmov => c.ins.valC
  | .rmmov | .mrmov => c.valB + c.ins.valC
  | .op =>
    match AluFun.ofCode c.ins.ifun with
    | some f => aluResult f c.valB c.valA
    | none => 0
  | .jump => if cnd then c.ins.valC else c.valP
  | .call | .push => c.valB - stackDelta
  | .ret | .pop => c.valB + stackDelta

/-- Execute stage (R413). -/
def executeStage (s : State) (c : Scratch) : Except CoreError Scratch :=
  match condStage s c.ins with
  | .ok cnd => .ok { c with valE := execValE c cnd, cnd := cnd }
  | .error e => .error e

/-- What the memory stage does in a class (R415). -/
inductive DataAccess where
  | none
  | read (maddr : Int)
  | write (maddr : Int) (v : Word)
deriving DecidableEq, Repr

/-- The data access of a cycle (R414, R415): at most one. -/
def dataAccess (c : Scratch) : DataAccess :=
  match c.ins.icode with
  | .rmmov => .write (dispAddr c.valB c.ins.valC) c.valA
  | .mrmov => .read (dispAddr c.valB c.ins.valC)
  | .call => .write (pushAddr c.valB) c.valP
  | .push => .write (pushAddr c.valB) c.valA
  | .ret | .pop => .read (popAddr c.valA)
  | .halt | .nop | .cmov | .irmov | .op | .jump => .none

/-- Memory stage (R415): a read gives valM, a write is checked here and made at commit, and valM is 0 elsewhere. -/
def memoryStage (s : State) (c : Scratch) : Except CoreError Scratch :=
  match dataAccess c with
  | .none => .ok { c with valM := 0 }
  | .read a =>
    match memRead s a with
    | .ok v => .ok { c with valM := v }
    | .error e => .error e
  | .write a v =>
    match memWrite s a v with
    | .ok _ => .ok { c with valM := 0 }
    | .error e => .error e

/-- dstE, written with valE (R420). -/
def dstE (f : Fields) : Option RegIdx :=
  match f.icode with
  | .cmov | .irmov | .op => some f.rB
  | .call | .ret | .push | .pop => some SP
  | .halt | .nop | .rmmov | .mrmov | .jump => none

/-- dstM, written with valM (R420). -/
def dstM (f : Fields) : Option RegIdx :=
  match f.icode with
  | .mrmov | .pop => some f.rA
  | .halt | .nop | .cmov | .irmov | .rmmov | .op | .jump | .call | .ret | .push => none

/-- A write port of the register file (R403). -/
def writePort (x : Regs) (dst : Option RegIdx) (v : Word) : Except CoreError Regs :=
  match dst with
  | none => .ok x
  | some r => writeReg x r v

/-- The register file after port E and then port M (R422); index 15 on either raises (R421). -/
def writtenRegs (s : State) (c : Scratch) : Except CoreError Regs :=
  match writePort s.regs (dstE c.ins) c.valE with
  | .ok x => writePort x (dstM c.ins) c.valM
  | .error e => .error e

/-- Writeback stage: its check (R421). The writes themselves are made at commit (R434). -/
def writebackStage (s : State) (c : Scratch) : Except CoreError Scratch :=
  match writtenRegs s c with
  | .ok _ => .ok c
  | .error e => .error e

/-- The next pc (R430); halt's stays at its own address (D11). -/
def nextPc (s : State) (c : Scratch) : Word :=
  match c.ins.icode with
  | .halt => s.pc
  | .jump => c.valE
  | .call => c.ins.valC
  | .ret => c.valM
  | .nop | .cmov | .irmov | .rmmov | .mrmov | .op | .push | .pop => c.valP

/-- The flag write (R411): only class op writes. -/
def nextFlags (s : State) (c : Scratch) : Flags :=
  match c.ins.icode with
  | .op =>
    match AluFun.ofCode c.ins.ifun with
    | some f => aluFlags f c.valB c.valA
    | none => s.flags
  | .halt | .nop | .cmov | .irmov | .rmmov | .mrmov | .jump | .call | .ret | .push | .pop => s.flags

/-- The status transition of a cycle that completes (R431). -/
def nextStatus (s : State) (c : Scratch) : Status :=
  match c.ins.icode with
  | .halt => .halted
  | .nop | .cmov | .irmov | .rmmov | .mrmov | .op | .jump | .call | .ret | .push | .pop => s.status

/-- The memory after the cycle's write, if it makes one (R415, R206). -/
def nextMem (s : State) (c : Scratch) : Except CoreError Memory :=
  match dataAccess c with
  | .write a v => memWrite s a v
  | .none | .read _ => .ok s.mem

/-- The stages in order (R400); the first error ends the cycle (R605). -/
def runStages (s : State) : Except CoreError Scratch :=
  match decodeStage s with
  | .error e => .error e
  | .ok c =>
    match operandReadStage s c with
    | .error e => .error e
    | .ok c =>
      match executeStage s c with
      | .error e => .error e
      | .ok c =>
        match memoryStage s c with
        | .error e => .error e
        | .ok c => writebackStage s c

/-- Commit (R434): all the writes of the cycle together. -/
def commit (s : State) (c : Scratch) : StepOutcome :=
  orRaise s (nextMem s c) fun m =>
  orRaise s (writtenRegs s c) fun x =>
  .next { s with
    mem := m
    regs := x
    flags := nextFlags s c
    status := nextStatus s c
    pc := nextPc s c
    cycleCount := s.cycleCount + 1 }

/-- One step by the stage tables (R400, R432, R434). -/
def stepByStages (s : State) : StepOutcome :=
  match s.status with
  | .running => orRaise s (runStages s) (commit s)
  | .halted => .next s
  | .errored => .next s

/-! The per-stage view (R620). -/

/-- The stages of a cycle, in order (R400, R12). -/
inductive Stage where
  | decode | operandRead | execute | memory | writeback | pcUpdate
deriving DecidableEq, Repr

/-- What the host sees after a stage (R620): the machine state and the CycleScratch record, `none` where the cycle has
no decoded instruction. -/
structure StageView where
  stage : Stage
  state : State
  scratch : Option Scratch
deriving DecidableEq, Repr

/-- The view after a stage that raised: the cycle ends there, and the state is the one an error leaves (R434). That this
stage is shown, with the record it was given, is notes/assumptions/21.md. -/
def raisedView (s : State) (n : Stage) (c : Option Scratch) (e : CoreError) : StageView :=
  { stage := n, state := s.errorState e, scratch := c }

/-- The view after pc update, the last stage: the commit has been made (R434). -/
def pcUpdateView (s : State) (c : Scratch) : List StageView :=
  match commit s c with
  | .next t => [{ stage := .pcUpdate, state := t, scratch := some c }]
  | .fault _ => []
  | .refused _ => []

/-- The views of the stages after a record. Until the commit a stage changes only the record (R400), so the state shown
is that of the start of the cycle. -/
def viewsFrom (s : State) (c : Scratch) : List (Stage × (State → Scratch → Except CoreError Scratch)) → List StageView
  | [] => pcUpdateView s c
  | (n, f) :: rest =>
    match f s c with
    | .ok c' => { stage := n, state := s, scratch := some c' } :: viewsFrom s c' rest
    | .error e => [raisedView s n (some c) e]

/-- The stages between decode and pc update (R400). -/
def middleStages : List (Stage × (State → Scratch → Except CoreError Scratch)) :=
  [(.operandRead, operandReadStage), (.execute, executeStage), (.memory, memoryStage), (.writeback, writebackStage)]

/-- What the host sees in per-stage mode during the next cycle (R620): one view after each stage that runs, none where no
cycle runs (R432). Looking changes no state. -/
def stageTrace (s : State) : List StageView :=
  match s.status with
  | .running =>
    match decodeStage s with
    | .ok c => { stage := .decode, state := s, scratch := some c } :: viewsFrom s c middleStages
    | .error e => [raisedView s .decode none e]
  | .halted => []
  | .errored => []

end Sys2Proof.Machine
end

