-- ==== Sys2Proof/Machine/Block.lean ====
section
/-! DEFINITION. The block's outside (spec 40_cycle.md rule R435, 10_state.md rule R109, 30_encoding.md rule R322,
70_reset_and_hazards.md rules R700, R710 and R712): the status output, reset, the continue gate, and the end of a run. -/

namespace Sys2Proof.Machine

/-- The 3-bit status output (R109): 1 AOK, 2 HLT, 3 ADR, 4 INS. The codes are the spec's decision D13.
`none` where status is Errored and no error is recorded, which no state that keeps `State.Inv` is. -/
def State.stat (s : State) : Option (BitVec 3) :=
  match s.status, s.err with
  | .running, _ => some 1
  | .halted, _ => some 2
  | .errored, some .addressOutOfBounds => some 3
  | .errored, some .invalidEncoding => some 4
  | .errored, none => none

/-- The decoder's `dec_err` output (R322): 0 none, 1 ADR, 2 INS. -/
def decErr (s : State) : BitVec 2 :=
  match decodeFields (fetch s) with
  | .ok _ => 0
  | .error .addressOutOfBounds => 1
  | .error .invalidEncoding => 2

/-- The block's inputs at a clock edge (R435). -/
structure Inputs where
  /-- Synchronous, active high. -/
  rst : Bool
  /-- The continue gate (R621). -/
  run : Bool
  /-- What the loader writes while `rst` is held (R710). -/
  image : List (List Char)
deriving DecidableEq, Repr

/-- One rising clock edge (R435): reset and the loader's writes while `rst` is held; else one step while `run` is 1;
else nothing. -/
def clockEdge (i : Inputs) (s : State) : StepOutcome :=
  if i.rst then .next { s.assertReset with mem := (loadImage s.memSize s.assertReset.mem i.image).1 }
  else if i.run then step s
  else .next s

/-- Clock edges in order, stopping as the host's `Core.run` does. -/
def clockEdges : List Inputs → State → StepOutcome
  | [], s => .next s
  | i :: rest, s =>
    match clockEdge i s with
    | .next t => clockEdges rest t
    | .fault r => .fault r
    | .refused r => .refused r

/-- The first state of the run, within `fuel` steps, whose status is not Running (R712). -/
def runToEnd : Nat → State → Option State
  | 0, s => if s.status = .running then none else some s
  | fuel + 1, s =>
    if s.status = .running then
      match step s with
      | .next t => runToEnd fuel t
      | .fault _ => none
      | .refused _ => none
    else some s

end Sys2Proof.Machine
end

