-- ==== Sys2Proof/Safety.lean ====
section
/-! DEFINITION. The terms the claims use: the invariant of the machine, where code lies in memory, and which registers and
bytes an instruction writes. -/

namespace Sys2Proof.Machine

/-- What holds of every state a run reaches: memory is in canonical form inside [0, MEM_SIZE), MEM_SIZE is legal (R201),
and an error is recorded exactly in status Errored (R109). -/
structure State.Inv (s : State) : Prop where
  memCanonical : s.mem.wf = true
  memBelow : s.mem.below s.memSize = true
  sizeMin : Config.minMemSize ≤ s.memSize
  sizeMax : s.memSize ≤ Config.maxMemSize
  errIffErrored : s.err.isSome = true ↔ s.status = .errored

/-- A run is safe as long as no error has ended it. -/
def State.safe (s : State) : Bool := decide (s.status ≠ .errored)

/-- The byte at an address, the model's read of one byte. -/
def State.byte (s : State) (a : Nat) : Byte := s.mem.get a

/-- The word at an address: `mem[a+7] ++ … ++ mem[a]` (R205). -/
def State.wordAt (s : State) (a : Nat) : Word :=
  s.byte (a + 7) ++ s.byte (a + 6) ++ s.byte (a + 5) ++ s.byte (a + 4) ++
    s.byte (a + 3) ++ s.byte (a + 2) ++ s.byte (a + 1) ++ s.byte a

/-- `x[SP]`. -/
def State.sp (s : State) : Word := s.regs[SP.val]'SP_named

/-- A step that raised the error: Errored with its kind, and the rest of the state as it was (R434). -/
def failed (s : State) (e : CoreError) : StepOutcome :=
  .next { s with status := .errored, err := some e }

/-- The pc is a valid memory index (R105). -/
def State.pcValid (s : State) : Prop := 0 ≤ s.pc.toInt ∧ s.pc.toInt < s.memSize

/-- The word at the integer address lies inside memory (R205, R206). -/
def State.wordLegal (s : State) (a : Int) : Prop := 0 ≤ a ∧ a + 8 ≤ s.memSize

/-- The bytes lie inside memory from address `a` on. -/
def State.bytesAt (s : State) (a : Nat) (bs : List Byte) : Prop :=
  a + bs.length ≤ s.memSize ∧ ∀ k (h : k < bs.length), s.byte (a + k) = bs[k]

/-- The machine is Running, its pc is a valid memory index, and the bytes lie at the pc. -/
def State.runsBytes (s : State) (bs : List Byte) : Prop :=
  s.status = .running ∧ 0 ≤ s.pc.toInt ∧ s.bytesAt s.pc.toNat bs

/-- The registers an instruction writes when it completes (R420). -/
def destinations : Instr → List RegIdx
  | .halt => []
  | .nop => []
  | .rrmovq _ rB => [rB]
  | .cmovle _ rB => [rB]
  | .cmovl _ rB => [rB]
  | .cmove _ rB => [rB]
  | .cmovne _ rB => [rB]
  | .cmovge _ rB => [rB]
  | .cmovg _ rB => [rB]
  | .irmovq rB _ => [rB]
  | .rmmovq _ _ _ => []
  | .mrmovq rA _ _ => [rA]
  | .addq _ rB => [rB]
  | .subq _ rB => [rB]
  | .andq _ rB => [rB]
  | .xorq _ rB => [rB]
  | .jmp _ => []
  | .jle _ => []
  | .jl _ => []
  | .je _ => []
  | .jne _ => []
  | .jge _ => []
  | .jg _ => []
  | .call _ => [SP]
  | .ret => [SP]
  | .pushq _ => [SP]
  | .popq rA => [SP, rA]

/-- What an instruction that completes leaves alone, whatever it does to memory: MEM_SIZE, err, the status (but for
halt's), the flags (but for an arithmetic or logic operation's), and every register but its destinations. -/
structure Framed (i : Instr) (s t : State) : Prop where
  memSize : t.memSize = s.memSize
  err : t.err = s.err
  status : i ≠ .halt → t.status = s.status
  flags : i.iclass ≠ .op → t.flags = s.flags
  regs : ∀ k (hk : k < numRegs), (∀ r ∈ destinations i, r.val ≠ k) → t.regs[k] = s.regs[k]

/-- A hexadecimal digit's character (R710). -/
def hexChar (d : Nibble) : Char := if d.val < 10 then Char.ofNat (48 + d.val) else Char.ofNat (87 + d.val)

/-- Bytes as HEXBYTES (R710): two digits a byte, the high nibble first. -/
def hexText : List Byte → List Char
  | [] => []
  | b :: bs => hexChar (hiNibble b) :: hexChar (loNibble b) :: hexText bs

end Sys2Proof.Machine
end

