-- ==== Sys2Proof/Certificates/Slice0/Obligations.lean ====
section
/-! DEFINITION. The statements about the model, for the provers. Each docstring names the rule of spec/ it formalises or,
where the spec marks a clause as its own decision or inference, says so. The opcode, condition and register numbers
are everywhere the spec's decisions D1 and D2 (notes/assumptions/4.md). -/

open Sys2Proof Sys2Proof.Machine

/-! ## Encoding -/

/-- Decoding the encoding of any instruction, whatever bytes follow, gives the instruction back, with every operand at
every value of its field (15 in a register field as well). -/
def Obligations.DecodeOfEncodeIsTheInstruction : Prop :=
  ∀ (i : Instr) (rest : List Byte), decode (encode i ++ rest) = .ok i

/-- The decoder answers an instruction on exactly the byte strings that begin with an encoding of it: the ignored
function nibble and the ignored register nibble take any value, and no other bit does. That unused register nibbles are
ignored is the spec's decision D7 (notes/assumptions/7.md). -/
def Obligations.DecodeAcceptsExactlyTheEncodings : Prop :=
  ∀ (bs : List Byte) (i : Instr), decode bs = .ok i ↔ ∃ f r rest, bs = encodeWith f r i ++ rest

/-- R304: in the nine classes that take no function code, the function nibble changes nothing of what is decoded, an error
included; 0x05 is halt and 0x9F is ret. -/
def Obligations.FunctionNibbleIgnoredWhereNotTaken : Prop :=
  (∀ icode ∈ ([0x0, 0x1, 0x3, 0x4, 0x5, 0x8, 0x9, 0xA, 0xB] : List Nibble), ∀ (f f' : Nibble) (rest : List Byte),
    decode (pair icode f :: rest) = decode (pair icode f' :: rest)) ∧
  (∀ rest : List Byte, decode (0x05 :: rest) = .ok .halt) ∧
  (∀ rest : List Byte, decode (0x9F :: rest) = .ok .ret)

/-- R310 and R602: the decoder raises InvalidEncoding on exactly the first bytes listed, whatever follows, and nothing but
opcode nibble 1 decodes to nop, with any function nibble. That an illegal first byte wins over missing bytes is the spec's
decision D8 (notes/assumptions/8.md). -/
def Obligations.InvalidEncodingOnExactlyTheListedBytes : Prop :=
  ∀ (b0 : Byte) (rest : List Byte),
    (decode (b0 :: rest) = .error .invalidEncoding ↔
      (0xC ≤ (hiNibble b0).val ∨
        ((hiNibble b0).val = 0x2 ∨ (hiNibble b0).val = 0x7) ∧ 0x7 ≤ (loNibble b0).val ∨
        (hiNibble b0).val = 0x6 ∧ 0x4 ≤ (loNibble b0).val)) ∧
    (decode (b0 :: rest) = .ok .nop ↔ (hiNibble b0).val = 0x1)

/-- R306: the length of a decoded instruction is the number its opcode nibble gives, the decoder reads exactly that many
bytes, and with fewer of them it raises AddressOutOfBounds. -/
def Obligations.LengthIsAFunctionOfTheOpcodeNibble : Prop :=
  ∀ (b0 : Byte) (rest : List Byte) (i : Instr), decode (b0 :: rest) = .ok i →
    (hiNibble b0 ∈ ([0x0, 0x1, 0x9] : List Nibble) → i.length = 1) ∧
    (hiNibble b0 ∈ ([0x2, 0x6, 0xA, 0xB] : List Nibble) → i.length = 2) ∧
    (hiNibble b0 ∈ ([0x7, 0x8] : List Nibble) → i.length = 9) ∧
    (hiNibble b0 ∈ ([0x3, 0x4, 0x5] : List Nibble) → i.length = 10) ∧
    (∀ k, i.length ≤ k → decode ((b0 :: rest).take k) = .ok i) ∧
    (∀ k, k < i.length → decode ((b0 :: rest).take k) = .error .addressOutOfBounds)

/-- The decoder raises AddressOutOfBounds exactly when there is no byte at the pc, or the first byte has a mapping and a
later byte of its class's length is missing. So an illegal first byte wins over missing bytes: the order of the checks
is the spec's decision D8 (notes/assumptions/8.md). -/
def Obligations.MissingBytesAreCheckedAfterTheNibbles : Prop :=
  ∀ bs : List Byte, decode bs = .error .addressOutOfBounds ↔
    bs = [] ∨ ∃ b0 rest c, bs = b0 :: rest ∧ IClass.ofCode (hiNibble b0) = some c ∧
      c.takesFun (loNibble b0) = true ∧ bs.length < c.length

/-- One word of each family, written out from the spec's encodings and test vectors (95_test_vectors.md section 2.1),
decodes to the instruction it stands for. A sanity statement. -/
def Obligations.WordsOfEachFamilyDecode : Prop :=
  decode [0x00] = .ok .halt ∧
  decode [0x1F] = .ok .nop ∧
  decode [0x20, 0x03] = .ok (.rrmovq rax rbx) ∧
  decode [0x26, 0x45] = .ok (.cmovg rsp rbp) ∧
  decode [0x30, 0xF4, 0x00, 0x02, 0x00, 0x00, 0x00, 0x00, 0x00, 0x00] = .ok (.irmovq rsp 0x200) ∧
  decode [0x40, 0x03, 0xF8, 0xFF, 0xFF, 0xFF, 0xFF, 0xFF, 0xFF, 0xFF] = .ok (.rmmovq rax rbx 0xFFFFFFFFFFFFFFF8) ∧
  decode [0x50, 0x13, 0x08, 0x00, 0x00, 0x00, 0x00, 0x00, 0x00, 0x00] = .ok (.mrmovq rcx rbx 8) ∧
  decode [0x61, 0x30] = .ok (.subq rbx rax) ∧
  decode [0x74, 0x65, 0x00, 0x00, 0x00, 0x00, 0x00, 0x00, 0x00] = .ok (.jne 0x65) ∧
  decode [0x80, 0x30, 0x00, 0x00, 0x00, 0x00, 0x00, 0x00, 0x00] = .ok (.call 0x30) ∧
  decode [0x90] = .ok .ret ∧
  decode [0xA0, 0x4F] = .ok (.pushq rsp) ∧
  decode [0xB0, 0x7F] = .ok (.popq rdi)

/-! ## The step -/

/-- While Running, a step runs the instruction whose bytes lie at the pc (with any value of its ignored nibbles), and more
generally whatever the decoder reads there. -/
def Obligations.StepRunsTheInstructionAtThePc : Prop :=
  (∀ (s : State) (i : Instr) (f r : Nibble), s.runsBytes (encodeWith f r i) → step s = exec i s) ∧
  (∀ (s : State) (i : Instr), s.status = .running → decodeAt s = .ok i → step s = exec i s)

/-- While Running, a step at a pc that is not a valid memory index raises AddressOutOfBounds, and one at a valid pc whose
byte is an illegal first byte raises InvalidEncoding. What an error leaves is the spec's decision D9
(notes/assumptions/9.md). -/
def Obligations.FailingDecodeEndsTheRun : Prop :=
  (∀ s : State, s.status = .running → ¬ s.pcValid → step s = failed s .addressOutOfBounds) ∧
  (∀ s : State, s.status = .running → s.pcValid →
    (0xC ≤ (hiNibble (s.byte s.pc.toNat)).val ∨
      ((hiNibble (s.byte s.pc.toNat)).val = 0x2 ∨ (hiNibble (s.byte s.pc.toNat)).val = 0x7) ∧
        0x7 ≤ (loNibble (s.byte s.pc.toNat)).val ∨
      (hiNibble (s.byte s.pc.toNat)).val = 0x6 ∧ 0x4 ≤ (loNibble (s.byte s.pc.toNat)).val) →
    step s = failed s .invalidEncoding)

/-- R432: in Halted and Errored, any number of steps leaves every piece of state unchanged. -/
def Obligations.TerminalStatesDoNotChange : Prop :=
  ∀ (s : State) (n : Nat), s.status ≠ .running → Sys2Proof.core.run n s = .next s

/-- R431: every transition of the status FSM. The premise is the machine's invariant that an error is recorded exactly
in status Errored (`State.Inv`). -/
def Obligations.StatusFollowsTheFsm : Prop :=
  ∀ s : State, (s.err.isSome = true ↔ s.status = .errored) →
    (s.status = .running → ∀ c, runStages s = .ok c → c.ins.icode ≠ .halt →
      ∃ t, step s = .next t ∧ t.status = .running ∧ t.err = none) ∧
    (s.status = .running → ∀ c, runStages s = .ok c → c.ins.icode = .halt →
      ∃ t, step s = .next t ∧ t.status = .halted ∧ t.err = none) ∧
    (s.status = .running → ∀ e, runStages s = .error e →
      ∃ t, step s = .next t ∧ t.status = .errored ∧ t.err = some e) ∧
    (s.status = .halted → ∃ t, step s = .next t ∧ t.status = .halted ∧ t.err = none) ∧
    (s.status = .errored → ∃ t, step s = .next t ∧ t.status = .errored ∧ t.err = s.err)

/-- Every step of every state answers a next state: the machine has no fault and no refusal. That a cycle that raises, and
a step in a terminal state, is a next state and no fault is the model's choice (notes/assumptions/14.md), where
93_implementation_defined.md writes fault. -/
def Obligations.EveryStepAnswersANextState : Prop :=
  ∀ s : State, ∃ t, step s = .next t

/-- The stage tables of 40_cycle.md and the instruction rules of 41_halt_nop.md to 45_stack.md give the same step in every
state: "the two must agree". `stepByStages` works on opcode classes and scratch records and never builds an `Instr`. -/
def Obligations.StageTablesAgreeWithInstructionRules : Prop :=
  ∀ s : State, step s = stepByStages s

/-- A cycle that raises changes status and err and nothing else, so the pc still holds the address of the instruction
that failed; and a running machine comes to Errored in no other way. The exact discard is the spec's decision D9
(notes/assumptions/9.md). -/
def Obligations.AnErrorIsPrecise : Prop :=
  (∀ (s : State) (e : CoreError), s.status = .running → runStages s = .error e → step s = failed s e) ∧
  (∀ s t : State, s.status = .running → step s = .next t → t.status = .errored →
    ∃ e, runStages s = .error e ∧ t = { s with status := .errored, err := some e })

/-- A cycle that completes, halt's included, adds one to cycleCount, and a cycle that raises does not change it. That the
halt cycle counts is the spec's decision D11, the wrap is D16 (notes/assumptions/11.md). -/
def Obligations.CycleCountCountsCompletedCycles : Prop :=
  ∀ s : State, s.status = .running → ∃ t, step s = .next t ∧
    ((∃ c, runStages s = .ok c) → t.cycleCount = s.cycleCount + 1) ∧
    ((∃ e, runStages s = .error e) → t.cycleCount = s.cycleCount)

/-- No program can observe cycleCount: changing its value before a step changes nothing after it but its value, by the same
amount. -/
def Obligations.CycleCountIsUnobservable : Prop :=
  ∀ (s t : State) (n : Word), step s = .next t →
    step { s with cycleCount := n } = .next { t with cycleCount := n + (t.cycleCount - s.cycleCount) }

/-! ## Invariant and reset -/

/-- Every step keeps the invariant: canonical memory inside [0, MEM_SIZE), a legal MEM_SIZE, and an error recorded exactly
in status Errored. It holds from every state that has it, not only from those a run reaches. -/
def Obligations.EveryStepKeepsTheInvariant : Prop :=
  ∀ s t : State, s.Inv → step s = .next t → t.Inv

/-- Every clock edge, with any inputs, keeps the invariant: reset, and any image the loader is given, included. -/
def Obligations.EveryClockEdgeKeepsTheInvariant : Prop :=
  ∀ (i : Inputs) (s t : State), s.Inv → clockEdge i s = .next t → t.Inv

/-- The reset state has the invariant, for every legal MEM_SIZE and for the one `State.reset` takes (that size is the
model's choice, notes/assumptions/1.md). -/
def Obligations.ResetHasTheInvariant : Prop :=
  (∀ n, Config.minMemSize ≤ n → n ≤ Config.maxMemSize → (State.resetOf n).Inv) ∧ State.reset.Inv

/-- Reset loads the reset value into every piece of state, from any state and whatever `run` is: memory zero in every byte,
registers and flags 0, Running, no error, pc 0, cycleCount 0. All but memory, status and err are the spec's decision D12
(notes/assumptions/2.md). -/
def Obligations.ResetLoadsEveryResetValue : Prop :=
  ∀ (s : State) (run : Bool), ∃ t, clockEdge { rst := true, run := run, image := [] } s = .next t ∧
    t.memSize = s.memSize ∧ (∀ a, t.byte a = 0) ∧ (∀ k (h : k < numRegs), t.regs[k] = 0) ∧
    t.flags = { sign := false, zero := false, overflow := false } ∧
    t.status = .running ∧ t.err = none ∧ t.pc = 0 ∧ t.cycleCount = 0

/-! ## The ALU and the conditions -/

/-- R410: result and flags of the four ALU operations, aluB the first operand. -/
def Obligations.AluResultAndFlags : Prop :=
  (∀ b a : Word, aluResult .add b a = b + a ∧ aluResult .sub b a = b - a ∧
    aluResult .and b a = b &&& a ∧ aluResult .xor b a = b ^^^ a) ∧
  (∀ b a : Word, (aluFlags .add b a).overflow = true ↔ ¬ (-2 ^ 63 ≤ b.toInt + a.toInt ∧ b.toInt + a.toInt ≤ 2 ^ 63 - 1)) ∧
  (∀ b a : Word, (aluFlags .sub b a).overflow = true ↔ ¬ (-2 ^ 63 ≤ b.toInt - a.toInt ∧ b.toInt - a.toInt ≤ 2 ^ 63 - 1)) ∧
  (∀ b a : Word, (aluFlags .and b a).overflow = false ∧ (aluFlags .xor b a).overflow = false) ∧
  (∀ (f : AluFun) (b a : Word), (aluFlags f b a).sign = (aluResult f b a).getLsbD 63 ∧
    ((aluFlags f b a).zero = true ↔ aluResult f b a = 0))

/-- The overflow flag by signs, which the spec derives from the exact-integer form, and the flags as facts about the
result read as a signed word: S says it is negative, Z that it is zero, and O that it differs from the exact one. -/
def Obligations.OverflowBySignsAndByValue : Prop :=
  (∀ b a : Word, (aluFlags .add b a).overflow = true ↔ b.msb = a.msb ∧ (b + a).msb ≠ b.msb) ∧
  (∀ b a : Word, (aluFlags .sub b a).overflow = true ↔ b.msb ≠ a.msb ∧ (b - a).msb ≠ b.msb) ∧
  (∀ b a : Word, (aluFlags .add b a).overflow = true ↔ (aluResult .add b a).toInt ≠ b.toInt + a.toInt) ∧
  (∀ b a : Word, (aluFlags .sub b a).overflow = true ↔ (aluResult .sub b a).toInt ≠ b.toInt - a.toInt) ∧
  (∀ (f : AluFun) (b a : Word), ((aluFlags f b a).sign = true ↔ (aluResult f b a).toInt < 0) ∧
    ((aluFlags f b a).zero = true ↔ (aluResult f b a).toInt = 0))

/-- R412: the predicate of each function code, rows 5 and 6 as the source gives them; codes 7 to 15 have none and raise
InvalidEncoding, in the decoder; and the condition of a cycle is that of the flags at its start. That such a code wins over
missing bytes is the spec's decision D8 (notes/assumptions/8.md). -/
def Obligations.ConditionsFollowTheTable : Prop :=
  (∀ S Z O : Bool,
    (Cond.ofCode 0).map (Flags.holds ⟨S, Z, O⟩) = some true ∧
    (Cond.ofCode 1).map (Flags.holds ⟨S, Z, O⟩) = some ((S ^^ O) || Z) ∧
    (Cond.ofCode 2).map (Flags.holds ⟨S, Z, O⟩) = some (S ^^ O) ∧
    (Cond.ofCode 3).map (Flags.holds ⟨S, Z, O⟩) = some Z ∧
    (Cond.ofCode 4).map (Flags.holds ⟨S, Z, O⟩) = some (!Z) ∧
    (Cond.ofCode 5).map (Flags.holds ⟨S, Z, O⟩) = some (!(S ^^ O) && !Z) ∧
    (Cond.ofCode 6).map (Flags.holds ⟨S, Z, O⟩) = some (!(S ^^ O))) ∧
  (∀ (f : Nibble) (rest : List Byte), 7 ≤ f.val → Cond.ofCode f = none ∧
    decode (pair 0x2 f :: rest) = .error .invalidEncoding ∧ decode (pair 0x7 f :: rest) = .error .invalidEncoding) ∧
  (∀ (s : State) (c : Scratch), runStages s = .ok c → (c.ins.icode = .cmov ∨ c.ins.icode = .jump) →
    some c.cnd = (Cond.ofCode c.ins.ifun).map s.flags.holds)

/-- R411: an arithmetic or logic operation that completes writes all three flags from its own result, and every other
instruction leaves them as they were. -/
def Obligations.OnlyAluOperationsWriteTheFlags : Prop :=
  (∀ (f : AluFun) (rA rB : RegIdx) (hA : rA.val < numRegs) (hB : rB.val < numRegs) (s : State),
    ∃ t, exec (.op f rA rB) s = .next t ∧ t.flags = aluFlags f s.regs[rB.val] s.regs[rA.val]) ∧
  (∀ (i : Instr) (s : State), i.iclass ≠ .op → ∃ t, exec i s = .next t ∧ t.flags = s.flags)

/-! ## What each instruction does -/

/-- halt: status becomes Halted, the cycle is counted, and nothing else changes; any function nibble. That the pc stays
at the halt and that its cycle counts is the spec's decision D11 (notes/assumptions/11.md). -/
def Obligations.HaltStopsTheMachine : Prop :=
  (∀ (f : Nibble) (rest : List Byte), decode (pair 0x0 f :: rest) = .ok .halt) ∧
  (∀ s : State, exec .halt s = .next { s with status := .halted, cycleCount := s.cycleCount + 1 })

/-- R451: nop advances the pc by one and does nothing else, with any function nibble; its only error is a pc that is no
valid memory index; and a nop at the last byte of memory completes, after which the next decode fails. That an error keeps
all the rest of the state is the spec's decision D9 (notes/assumptions/9.md). -/
def Obligations.NopOnlyAdvances : Prop :=
  (∀ (f : Nibble) (rest : List Byte), decode (pair 0x1 f :: rest) = .ok .nop) ∧
  (∀ s : State, exec .nop s = .next { s with pc := s.pc + 1, cycleCount := s.cycleCount + 1 }) ∧
  (∀ s : State, s.status = .running → ¬ s.pcValid → step s = failed s .addressOutOfBounds) ∧
  (∀ (s : State) (f : Nibble), s.Inv → s.runsBytes [pair 0x1 f] → s.pc.toInt + 1 = s.memSize →
    ∃ t, step s = .next t ∧ t.pc.toInt = s.memSize ∧ step t = failed t .addressOutOfBounds)

/-- R460 to R467, for rrmovq, cmovle, cmovl, cmove, cmovne, cmovge and cmovg: the encoding of each, the value its rB gets,
and its errors. That an error keeps all the rest of the state is the spec's decision D9 (notes/assumptions/9.md), and that
an illegal condition code wins over a missing second byte is its decision D8 (notes/assumptions/8.md). -/
def Obligations.ConditionalMovesSelect : Prop :=
  (∀ (rA rB : RegIdx) (rest : List Byte),
    decode (pair 0x2 0x0 :: pair rA rB :: rest) = .ok (.rrmovq rA rB) ∧
    decode (pair 0x2 0x1 :: pair rA rB :: rest) = .ok (.cmovle rA rB) ∧
    decode (pair 0x2 0x2 :: pair rA rB :: rest) = .ok (.cmovl rA rB) ∧
    decode (pair 0x2 0x3 :: pair rA rB :: rest) = .ok (.cmove rA rB) ∧
    decode (pair 0x2 0x4 :: pair rA rB :: rest) = .ok (.cmovne rA rB) ∧
    decode (pair 0x2 0x5 :: pair rA rB :: rest) = .ok (.cmovge rA rB) ∧
    decode (pair 0x2 0x6 :: pair rA rB :: rest) = .ok (.cmovg rA rB)) ∧
  (∀ (rA rB : RegIdx) (hA : rA.val < numRegs) (hB : rB.val < numRegs) (s : State),
    let moved (v : Word) : State :=
      { s with regs := s.regs.set rB.val v, pc := s.pc + 2, cycleCount := s.cycleCount + 1 }
    let select (c : Bool) : Word := if c then s.regs[rA.val] else s.regs[rB.val]
    let S := s.flags.sign
    let Z := s.flags.zero
    let O := s.flags.overflow
    exec (.rrmovq rA rB) s = .next (moved s.regs[rA.val]) ∧
    exec (.cmovle rA rB) s = .next (moved (select ((S ^^ O) || Z))) ∧
    exec (.cmovl rA rB) s = .next (moved (select (S ^^ O))) ∧
    exec (.cmove rA rB) s = .next (moved (select Z)) ∧
    exec (.cmovne rA rB) s = .next (moved (select (!Z))) ∧
    exec (.cmovge rA rB) s = .next (moved (select (!(S ^^ O) && !Z))) ∧
    exec (.cmovg rA rB) s = .next (moved (select (!(S ^^ O))))) ∧
  (∀ (c : Cond) (rA rB : RegIdx) (s : State), (rA = 15 ∨ rB = 15) →
    exec (.cmov c rA rB) s = failed s .addressOutOfBounds) ∧
  (∀ (f : Nibble) (rest : List Byte), 7 ≤ f.val → decode (pair 0x2 f :: rest) = .error .invalidEncoding) ∧
  (∀ f : Nibble, f.val < 7 → decode [pair 0x2 f] = .error .addressOutOfBounds) ∧
  (∀ s : State, s.status = .running → ¬ s.pcValid → step s = failed s .addressOutOfBounds)

/-- R470: irmovq loads its whole immediate into rB, rA and the function nibble being ignored; rB = 15 and missing bytes
raise AddressOutOfBounds. -/
def Obligations.IrmovqLoadsItsImmediate : Prop :=
  (∀ (f rA rB : Nibble) (v : Word) (rest : List Byte),
    decode (pair 0x3 f :: pair rA rB :: (leBytes v ++ rest)) = .ok (.irmovq rB v)) ∧
  (∀ (rB : RegIdx) (hB : rB.val < numRegs) (v : Word) (s : State),
    exec (.irmovq rB v) s =
      .next { s with regs := s.regs.set rB.val v, pc := s.pc + 10, cycleCount := s.cycleCount + 1 }) ∧
  (∀ (v : Word) (s : State), exec (.irmovq 15 v) s = failed s .addressOutOfBounds) ∧
  (∀ (f rA rB : Nibble) (v : Word) (k : Nat), k < 10 →
    decode ((pair 0x3 f :: pair rA rB :: leBytes v).take k) = .error .addressOutOfBounds)

/-- rmmovq stores rA at sint(rB) + sint(D), the exact sum, if the word there lies in memory, and changes no register or
flag; a register field of 15 or a word out of bounds raises AddressOutOfBounds. That the sum never wraps is the spec's
decision D5 (notes/assumptions/5.md). -/
def Obligations.RmmovqStoresAWord : Prop :=
  (∀ (f rA rB : Nibble) (d : Word) (rest : List Byte),
    decode (pair 0x4 f :: pair rA rB :: (leBytes d ++ rest)) = .ok (.rmmovq rA rB d)) ∧
  (∀ (rA rB : RegIdx) (hA : rA.val < numRegs) (hB : rB.val < numRegs) (d : Word) (s : State),
    s.wordLegal (s.regs[rB.val].toInt + d.toInt) →
    exec (.rmmovq rA rB d) s =
      .next { s with
        mem := s.mem.setBytes (s.regs[rB.val].toInt + d.toInt).toNat (leBytes s.regs[rA.val])
        pc := s.pc + 10
        cycleCount := s.cycleCount + 1 }) ∧
  (∀ (rA rB : RegIdx) (_hA : rA.val < numRegs) (hB : rB.val < numRegs) (d : Word) (s : State),
    ¬ s.wordLegal (s.regs[rB.val].toInt + d.toInt) → exec (.rmmovq rA rB d) s = failed s .addressOutOfBounds) ∧
  (∀ (rA rB : RegIdx) (d : Word) (s : State), (rA = 15 ∨ rB = 15) →
    exec (.rmmovq rA rB d) s = failed s .addressOutOfBounds) ∧
  (∀ (f rA rB : Nibble) (d : Word) (k : Nat), k < 10 →
    decode ((pair 0x4 f :: pair rA rB :: leBytes d).take k) = .error .addressOutOfBounds)

/-- R472: mrmovq loads rA with the word at sint(rB) + sint(D), the base being read before rA is written; a register field
of 15, a word out of bounds or a missing byte raises AddressOutOfBounds. That the sum never wraps is the spec's decision D5
(notes/assumptions/5.md), and that an error keeps all the rest of the state is its decision D9 (notes/assumptions/9.md). -/
def Obligations.MrmovqLoadsAWord : Prop :=
  (∀ (f rA rB : Nibble) (d : Word) (rest : List Byte),
    decode (pair 0x5 f :: pair rA rB :: (leBytes d ++ rest)) = .ok (.mrmovq rA rB d)) ∧
  (∀ (rA rB : RegIdx) (hA : rA.val < numRegs) (hB : rB.val < numRegs) (d : Word) (s : State),
    s.wordLegal (s.regs[rB.val].toInt + d.toInt) →
    exec (.mrmovq rA rB d) s =
      .next { s with
        regs := s.regs.set rA.val (s.wordAt (s.regs[rB.val].toInt + d.toInt).toNat)
        pc := s.pc + 10
        cycleCount := s.cycleCount + 1 }) ∧
  (∀ (rA rB : RegIdx) (hB : rB.val < numRegs) (d : Word) (s : State),
    ¬ s.wordLegal (s.regs[rB.val].toInt + d.toInt) → exec (.mrmovq rA rB d) s = failed s .addressOutOfBounds) ∧
  (∀ (rA rB : RegIdx) (d : Word) (s : State), (rA = 15 ∨ rB = 15) →
    exec (.mrmovq rA rB d) s = failed s .addressOutOfBounds) ∧
  (∀ (f rA rB : Nibble) (d : Word) (k : Nat), k < 10 →
    decode ((pair 0x5 f :: pair rA rB :: leBytes d).take k) = .error .addressOutOfBounds)

/-- R500 to R504, for addq, subq, andq and xorq: the encoding of each, its result in rB, all three flags, and its errors,
in which neither the flags nor rB change. That an error keeps all the rest of the state too is the spec's decision D9
(notes/assumptions/9.md), and that an illegal function code wins over a missing second byte is its decision D8
(notes/assumptions/8.md). -/
def Obligations.AluOperationsCompute : Prop :=
  (∀ (rA rB : RegIdx) (rest : List Byte),
    decode (pair 0x6 0x0 :: pair rA rB :: rest) = .ok (.addq rA rB) ∧
    decode (pair 0x6 0x1 :: pair rA rB :: rest) = .ok (.subq rA rB) ∧
    decode (pair 0x6 0x2 :: pair rA rB :: rest) = .ok (.andq rA rB) ∧
    decode (pair 0x6 0x3 :: pair rA rB :: rest) = .ok (.xorq rA rB)) ∧
  (∀ (rA rB : RegIdx) (hA : rA.val < numRegs) (hB : rB.val < numRegs) (s : State),
    let a := s.regs[rA.val]
    let b := s.regs[rB.val]
    let done (r : Word) (o : Bool) : State :=
      { s with
        regs := s.regs.set rB.val r
        flags := { sign := r.getLsbD 63, zero := decide (r = 0), overflow := o }
        pc := s.pc + 2
        cycleCount := s.cycleCount + 1 }
    exec (.addq rA rB) s =
      .next (done (b + a) (decide (b.toInt + a.toInt < -2 ^ 63 ∨ 2 ^ 63 - 1 < b.toInt + a.toInt))) ∧
    exec (.subq rA rB) s =
      .next (done (b - a) (decide (b.toInt - a.toInt < -2 ^ 63 ∨ 2 ^ 63 - 1 < b.toInt - a.toInt))) ∧
    exec (.andq rA rB) s = .next (done (b &&& a) false) ∧
    exec (.xorq rA rB) s = .next (done (b ^^^ a) false)) ∧
  (∀ (f : AluFun) (rA rB : RegIdx) (s : State), (rA = 15 ∨ rB = 15) →
    exec (.op f rA rB) s = failed s .addressOutOfBounds) ∧
  (∀ (f : Nibble) (rest : List Byte), 4 ≤ f.val → decode (pair 0x6 f :: rest) = .error .invalidEncoding) ∧
  (∀ f : Nibble, f.val < 4 → decode [pair 0x6 f] = .error .addressOutOfBounds) ∧
  (∀ s : State, s.status = .running → ¬ s.pcValid → step s = failed s .addressOutOfBounds)

/-- R531 to R537, for jmp, jle, jl, je, jne, jge and jg: the encoding of each, and the pc it sets, to its absolute target
when its condition holds and past itself when not. A jump changes nothing else and never fails; an undefined condition
code or a missing byte fails in the decoder. That an undefined condition code wins over missing bytes is the spec's decision
D8 (notes/assumptions/8.md). -/
def Obligations.JumpsSetThePc : Prop :=
  (∀ (dest : Word) (rest : List Byte),
    decode (pair 0x7 0x0 :: (leBytes dest ++ rest)) = .ok (.jmp dest) ∧
    decode (pair 0x7 0x1 :: (leBytes dest ++ rest)) = .ok (.jle dest) ∧
    decode (pair 0x7 0x2 :: (leBytes dest ++ rest)) = .ok (.jl dest) ∧
    decode (pair 0x7 0x3 :: (leBytes dest ++ rest)) = .ok (.je dest) ∧
    decode (pair 0x7 0x4 :: (leBytes dest ++ rest)) = .ok (.jne dest) ∧
    decode (pair 0x7 0x5 :: (leBytes dest ++ rest)) = .ok (.jge dest) ∧
    decode (pair 0x7 0x6 :: (leBytes dest ++ rest)) = .ok (.jg dest)) ∧
  (∀ (dest : Word) (s : State),
    let goes (c : Bool) : State :=
      { s with pc := if c then dest else s.pc + 9, cycleCount := s.cycleCount + 1 }
    let S := s.flags.sign
    let Z := s.flags.zero
    let O := s.flags.overflow
    exec (.jmp dest) s = .next (goes true) ∧
    exec (.jle dest) s = .next (goes ((S ^^ O) || Z)) ∧
    exec (.jl dest) s = .next (goes (S ^^ O)) ∧
    exec (.je dest) s = .next (goes Z) ∧
    exec (.jne dest) s = .next (goes (!Z)) ∧
    exec (.jge dest) s = .next (goes (!(S ^^ O) && !Z)) ∧
    exec (.jg dest) s = .next (goes (!(S ^^ O)))) ∧
  (∀ (f : Nibble) (rest : List Byte), 7 ≤ f.val → decode (pair 0x7 f :: rest) = .error .invalidEncoding) ∧
  (∀ (f : Nibble) (dest : Word) (k : Nat), f.val < 7 → k < 9 →
    decode ((pair 0x7 f :: leBytes dest).take k) = .error .addressOutOfBounds)

/-- A jump to its own address never ends: after any number of steps the machine still runs at that pc, and only cycleCount
has moved, modulo 2^64. -/
def Obligations.JumpToItselfRunsForever : Prop :=
  ∀ (s : State) (n : Nat), s.runsBytes (encode (.jmp s.pc)) →
    Sys2Proof.core.run n s = .next { s with cycleCount := s.cycleCount + BitVec.ofNat 64 n }

/-- R540: call stores the address after itself at x[SP] - 8, makes that the stack pointer and jumps, when the slot lies in
memory; x[SP] below 8 or above MEM_SIZE, or a missing byte, raises AddressOutOfBounds, with nothing committed. -/
def Obligations.CallPushesTheReturnAddress : Prop :=
  (∀ (f : Nibble) (dest : Word) (rest : List Byte),
    decode (pair 0x8 f :: (leBytes dest ++ rest)) = .ok (.call dest)) ∧
  (∀ (dest : Word) (s : State), 8 ≤ s.sp.toInt → s.sp.toInt ≤ s.memSize →
    exec (.call dest) s =
      .next { s with
        mem := s.mem.setBytes (s.sp.toInt - 8).toNat (leBytes (s.pc + 9))
        regs := s.regs.set SP.val (s.sp - 8) SP_named
        pc := dest
        cycleCount := s.cycleCount + 1 }) ∧
  (∀ (dest : Word) (s : State), (s.sp.toInt < 8 ∨ s.memSize < s.sp.toInt) →
    exec (.call dest) s = failed s .addressOutOfBounds) ∧
  (∀ (f : Nibble) (dest : Word) (k : Nat), k < 9 →
    decode ((pair 0x8 f :: leBytes dest).take k) = .error .addressOutOfBounds)

/-- ret reads the return address at the old stack pointer, adds 8 to it and jumps; a slot out of bounds raises
AddressOutOfBounds. In a legal machine the addition does not wrap, which the spec derives. -/
def Obligations.RetPopsTheReturnAddress : Prop :=
  (∀ (f : Nibble) (rest : List Byte), decode (pair 0x9 f :: rest) = .ok .ret) ∧
  (∀ s : State, s.wordLegal s.sp.toInt →
    exec .ret s =
      .next { s with
        regs := s.regs.set SP.val (s.sp + 8) SP_named
        pc := s.wordAt s.sp.toInt.toNat
        cycleCount := s.cycleCount + 1 }) ∧
  (∀ s : State, ¬ s.wordLegal s.sp.toInt → exec .ret s = failed s .addressOutOfBounds) ∧
  (∀ s : State, s.Inv → s.wordLegal s.sp.toInt → (s.sp + 8).toInt = s.sp.toInt + 8)

/-- pushq stores rA, read before the stack pointer moves, at x[SP] - 8 and makes that the stack pointer; rA = 15 or a slot
out of bounds raises AddressOutOfBounds. That pushq reads rA at operand read is the spec's inference (90_conflicts.md C6). -/
def Obligations.PushqStoresARegister : Prop :=
  (∀ (f rA rB : Nibble) (rest : List Byte), decode (pair 0xA f :: pair rA rB :: rest) = .ok (.pushq rA)) ∧
  (∀ (rA : RegIdx) (hA : rA.val < numRegs) (s : State), 8 ≤ s.sp.toInt → s.sp.toInt ≤ s.memSize →
    exec (.pushq rA) s =
      .next { s with
        mem := s.mem.setBytes (s.sp.toInt - 8).toNat (leBytes s.regs[rA.val])
        regs := s.regs.set SP.val (s.sp - 8) SP_named
        pc := s.pc + 2
        cycleCount := s.cycleCount + 1 }) ∧
  (∀ (rA : RegIdx) (s : State), (rA = 15 ∨ s.sp.toInt < 8 ∨ s.memSize < s.sp.toInt) →
    exec (.pushq rA) s = failed s .addressOutOfBounds) ∧
  (∀ f : Nibble, decode [pair 0xA f] = .error .addressOutOfBounds)

/-- popq loads rA with the word at the old stack pointer and adds 8 to the stack pointer; popq %rsp leaves the loaded word,
the order of the two writes being the spec's decision D10 (notes/assumptions/10.md). rA = 15 or a slot out of bounds
raises AddressOutOfBounds, and then the stack pointer does not move either. -/
def Obligations.PopqLoadsARegister : Prop :=
  (∀ (f rA rB : Nibble) (rest : List Byte), decode (pair 0xB f :: pair rA rB :: rest) = .ok (.popq rA)) ∧
  (∀ (rA : RegIdx) (hA : rA.val < numRegs) (s : State), rA ≠ SP → s.wordLegal s.sp.toInt →
    exec (.popq rA) s =
      .next { s with
        regs := (s.regs.set SP.val (s.sp + 8) SP_named).set rA.val (s.wordAt s.sp.toInt.toNat)
        pc := s.pc + 2
        cycleCount := s.cycleCount + 1 }) ∧
  (∀ s : State, s.wordLegal s.sp.toInt →
    exec (.popq SP) s =
      .next { s with
        regs := s.regs.set SP.val (s.wordAt s.sp.toInt.toNat) SP_named
        pc := s.pc + 2
        cycleCount := s.cycleCount + 1 }) ∧
  (∀ (rA : RegIdx) (s : State), (rA = 15 ∨ ¬ s.wordLegal s.sp.toInt) →
    exec (.popq rA) s = failed s .addressOutOfBounds) ∧
  (∀ f : Nibble, decode [pair 0xB f] = .error .addressOutOfBounds)

/-- Every instruction a used register field of which holds 15 raises AddressOutOfBounds, whatever the state; and every
well-formed instruction that touches no data memory completes. The kind and place of the check are the spec's reading of
the source (D9, notes/assumptions/9.md). -/
def Obligations.RegisterFifteenAlwaysFails : Prop :=
  (∀ (i : Instr) (s : State), i.wf = false → exec i s = failed s .addressOutOfBounds) ∧
  (∀ (i : Instr) (s : State), i.wf = true →
    i.iclass ∈ [IClass.halt, IClass.nop, IClass.cmov, IClass.irmov, IClass.op, IClass.jump] →
    ∃ t, exec i s = .next t ∧ t.err = s.err ∧ t.cycleCount = s.cycleCount + 1 ∧
      (t.status = s.status ∨ t.status = .halted))

/-- pushq of any register and then popq of the same register, when neither fails, leave every register as it was: the
register's value and the stack pointer's, for %rsp too. Memory is canonical by the invariant. -/
def Obligations.PushThenPopRestoresTheRegisters : Prop :=
  ∀ (rA : RegIdx) (s t : State), s.Inv → s.status = .running →
    exec (.pushq rA) s = .next t → t.status = .running →
    ∃ u, exec (.popq rA) t = .next u ∧ u.regs = s.regs ∧ u.status = .running

/-- call and then ret, when the call does not fail, give the pc of the instruction after the call and the registers as
they were, the stack pointer among them. Memory is canonical by the invariant. -/
def Obligations.CallThenRetReturns : Prop :=
  ∀ (dest : Word) (s t : State), s.Inv → s.status = .running →
    exec (.call dest) s = .next t → t.status = .running →
    ∃ u, exec .ret t = .next u ∧ u.pc = s.pc + 9 ∧ u.regs = s.regs ∧ u.status = .running

/-! ## Memory -/

/-- A word access is legal at exactly the addresses 0 to MEM_SIZE - 8, aligned or not (D6, notes/assumptions/6.md), and
elsewhere it raises AddressOutOfBounds; a load after a store to the same address gives the word stored; the stored bytes
are the word's, least significant first; and every other byte reads as before. -/
def Obligations.StoreThenLoadGivesTheWord : Prop :=
  (∀ (s : State) (a : Int) (v : Word), ¬ s.wordLegal a →
    memRead s a = .error .addressOutOfBounds ∧ memWrite s a v = .error .addressOutOfBounds) ∧
  (∀ (s : State) (a : Int), s.wordLegal a → memRead s a = .ok (s.wordAt a.toNat)) ∧
  (∀ (s : State) (a : Int) (v : Word), s.mem.wf = true → s.wordLegal a →
    ∃ m, memWrite s a v = .ok m ∧ memRead { s with mem := m } a = .ok v ∧
      (∀ i, i < 8 → m.get (a.toNat + i) = byteOf v i) ∧
      (∀ x, x < a.toNat ∨ a.toNat + 8 ≤ x → m.get x = s.mem.get x))

/-! ## Frames -/

/-- Frame of the instructions that store nothing (halt, nop, the seven conditional moves, irmovq, mrmovq, the four ALU
operations, the seven jumps, ret and popq): either the cycle raised, or everything but the pc, the destination registers
(with the stack pointer of ret and popq), halt's status, the ALU operations' flags and cycleCount is unchanged; in both
cases every byte of memory reads as before. -/
def Obligations.InstructionsWithoutAStoreLeaveMemory : Prop :=
  ∀ (i : Instr) (s t : State),
    i.iclass ∈ [IClass.halt, IClass.nop, IClass.cmov, IClass.irmov, IClass.mrmov, IClass.op, IClass.jump, IClass.ret,
      IClass.pop] →
    exec i s = .next t →
    (∀ a, t.byte a = s.byte a) ∧
    ((∃ e, t = { s with status := .errored, err := some e }) ∨
      (Framed i s t ∧ t.mem = s.mem ∧ t.cycleCount = s.cycleCount + 1))

/-- Frame of rmmovq: either the cycle raised, or everything but the pc, cycleCount and the eight bytes at the address
`dispAddr` computes is unchanged, and those bytes are rA's, least significant first. -/
def Obligations.RmmovqChangesOnlyTheStoredBytes : Prop :=
  ∀ (rA rB : RegIdx) (d : Word) (s t : State), exec (.rmmovq rA rB d) s = .next t →
    (∃ e, t = { s with status := .errored, err := some e }) ∨
    (Framed (.rmmovq rA rB d) s t ∧ t.regs = s.regs ∧ t.cycleCount = s.cycleCount + 1 ∧
      ∀ (hA : rA.val < numRegs) (hB : rB.val < numRegs) (a : Int), a = dispAddr s.regs[rB.val] d →
        0 ≤ a ∧ a + 8 ≤ s.memSize ∧
        (∀ x, x < a.toNat ∨ a.toNat + 8 ≤ x → t.byte x = s.byte x) ∧
        (s.mem.wf = true → ∀ k, k < 8 → t.byte (a.toNat + k) = byteOf s.regs[rA.val] k))

/-- Frame of call and pushq: either the cycle raised, or everything but the pc, the stack pointer, cycleCount and the eight
bytes at the address `pushAddr` computes from the old stack pointer is unchanged; the bytes are the return address's or
rA's, least significant first. -/
def Obligations.CallAndPushqChangeOnlyTheStackSlot : Prop :=
  (∀ (dest : Word) (s t : State), exec (.call dest) s = .next t →
    (∃ e, t = { s with status := .errored, err := some e }) ∨
    (Framed (.call dest) s t ∧ t.cycleCount = s.cycleCount + 1 ∧
      ∀ a : Int, a = pushAddr s.sp → 0 ≤ a ∧ a + 8 ≤ s.memSize ∧
        (∀ x, x < a.toNat ∨ a.toNat + 8 ≤ x → t.byte x = s.byte x) ∧
        (s.mem.wf = true → ∀ k, k < 8 → t.byte (a.toNat + k) = byteOf (valP s 9) k))) ∧
  (∀ (rA : RegIdx) (s t : State), exec (.pushq rA) s = .next t →
    (∃ e, t = { s with status := .errored, err := some e }) ∨
    (Framed (.pushq rA) s t ∧ t.cycleCount = s.cycleCount + 1 ∧
      ∀ (hA : rA.val < numRegs) (a : Int), a = pushAddr s.sp → 0 ≤ a ∧ a + 8 ≤ s.memSize ∧
        (∀ x, x < a.toNat ∨ a.toNat + 8 ≤ x → t.byte x = s.byte x) ∧
        (s.mem.wf = true → ∀ k, k < 8 → t.byte (a.toNat + k) = byteOf s.regs[rA.val] k)))

/-! ## The block's outside -/

/-- The status output of a state that has the invariant: 1 Running, 2 Halted, 3 and 4 Errored by kind. The codes are the
spec's decision D13 (notes/assumptions/4.md). -/
def Obligations.StatusOutputCodes : Prop :=
  ∀ s : State, s.Inv →
    (s.stat = some 1 ↔ s.status = .running) ∧ (s.stat = some 2 ↔ s.status = .halted) ∧
    (s.stat = some 3 ↔ s.status = .errored ∧ s.err = some .addressOutOfBounds) ∧
    (s.stat = some 4 ↔ s.status = .errored ∧ s.err = some .invalidEncoding) ∧ s.stat.isSome = true

/-- Holding the continue gate changes nothing: without reset, any sequence of clock edges leads where as many steps as it
has edges with `run` lead. The gate is the spec's decision D18 (notes/assumptions/13.md). -/
def Obligations.HoldingTheClockChangesNothing : Prop :=
  ∀ (edges : List Inputs) (s : State), (∀ i ∈ edges, i.rst = false) →
    clockEdges edges s = Sys2Proof.core.run (edges.countP (fun i => i.run)) s

/-- The loader writes well-formed HEXBYTES in order from ADDR on, as far as memory goes, and reports `malformedInput`
exactly when a byte would lie at or past MEM_SIZE. The details are the spec's decision D21 (notes/assumptions/12.md). -/
def Obligations.LoaderWritesTheBytes : Prop :=
  ∀ (n a : Nat) (m : Memory) (bs : List Byte),
    (loadHexBytes n m a (hexText bs)).1 = m.setBytes a (bs.take (n - a)) ∧
    ((loadHexBytes n m a (hexText bs)).2 = .malformedInput ↔ bs ≠ [] ∧ n < a + bs.length) ∧
    ((loadHexBytes n m a (hexText bs)).2 = .loaded ↔ bs = [] ∨ a + bs.length ≤ n)

/-- The per-stage view of a running machine: its last view shows the state that the step leads to; every earlier one shows
the state at the start of the cycle; the stages come in the order of R400, without a gap, all six and the record of the
stages last where the cycle completes, and not as far as pc update where it raises, the last view then showing the state the
error leaves. A machine that is not Running shows none. That a cycle that raises ends in a view of that state is the model's
choice (notes/assumptions/21.md); which stage that view is of, `TheRaisingStageIsShownLast` says. -/
def Obligations.PerStageViewLeadsToTheStep : Prop :=
  ∀ s : State,
    (s.status = .running → ∃ v, (stageTrace s).getLast? = some v ∧ step s = .next v.state ∧
      (∀ u ∈ (stageTrace s).dropLast, u.state = s) ∧
      (stageTrace s).map StageView.stage <+: [.decode, .operandRead, .execute, .memory, .writeback, .pcUpdate] ∧
      (∀ c, runStages s = .ok c → (stageTrace s).length = 6 ∧ v.scratch = some c) ∧
      (∀ e, runStages s = .error e → v.stage ≠ .pcUpdate ∧ v.state = s.errorState e)) ∧
    (s.status ≠ .running → stageTrace s = [])

/-- Every record the per-stage view shows holds the instruction decoded at the pc, its length and valP: the stages after
decode change none of them. The length is that of the opcode's class and valP is the pc plus the length. It covers the view
of a stage that raises, which shows the record that stage was given, and no record where decode raises: that is the model's
choice (notes/assumptions/21.md). -/
def Obligations.ShownRecordsHoldTheDecodedInstruction : Prop :=
  ∀ (s : State) (u : StageView) (c : Scratch), u ∈ stageTrace s → u.scratch = some c →
    decodeFields (fetch s) = .ok c.ins ∧ c.ins.len = c.ins.icode.length ∧
      c.valP = s.pc + BitVec.ofNat 64 c.ins.len

/-- The last stage the per-stage view shows of a cycle that raises is the one that raised, after every stage before it:
decode, operand read, memory or writeback. Execute raises nothing, the decoder having checked the condition code. That the
raising stage is shown is the model's choice (notes/assumptions/21.md). -/
def Obligations.TheRaisingStageIsShownLast : Prop :=
  ∀ s : State, s.status = .running →
    (∀ e, decodeStage s = .error e → (stageTrace s).map StageView.stage = [.decode]) ∧
    (∀ c1 e, decodeStage s = .ok c1 → operandReadStage s c1 = .error e →
      (stageTrace s).map StageView.stage = [.decode, .operandRead]) ∧
    (∀ c1 c2, decodeStage s = .ok c1 → operandReadStage s c1 = .ok c2 → ∃ c3, executeStage s c2 = .ok c3) ∧
    (∀ c1 c2 c3 e, decodeStage s = .ok c1 → operandReadStage s c1 = .ok c2 → executeStage s c2 = .ok c3 →
      memoryStage s c3 = .error e →
      (stageTrace s).map StageView.stage = [.decode, .operandRead, .execute, .memory]) ∧
    (∀ c1 c2 c3 c4 e, decodeStage s = .ok c1 → operandReadStage s c1 = .ok c2 → executeStage s c2 = .ok c3 →
      memoryStage s c3 = .ok c4 → writebackStage s c4 = .error e →
      (stageTrace s).map StageView.stage = [.decode, .operandRead, .execute, .memory, .writeback])
end

