-- ==== Sys2Proof/Laws/Bytes.lean ====
section
/-! SUPPORT. Laws of the bit fields and of the little-endian byte order (R204, R300, R305, R308). -/

namespace Sys2Proof

@[simp] theorem hiNibble_pair (h l : Nibble) : hiNibble (pair h l) = h := by
  apply Fin.ext; simp only [hiNibble, pair, BitVec.toNat_ofNat]; omega

@[simp] theorem loNibble_pair (h l : Nibble) : loNibble (pair h l) = l := by
  apply Fin.ext; simp only [loNibble, pair, BitVec.toNat_ofNat]; omega

/-- A byte is its two nibbles. -/
@[simp] theorem pair_nibbles (b : Byte) : pair (hiNibble b) (loNibble b) = b := by
  apply BitVec.eq_of_toNat_eq
  simp only [hiNibble, loNibble, pair, BitVec.toNat_ofNat]; omega

theorem pair_inj {h h' l l' : Nibble} (e : pair h l = pair h' l') : h = h' ∧ l = l' := by
  refine ⟨?_, ?_⟩
  · have := congrArg hiNibble e; simpa using this
  · have := congrArg loNibble e; simpa using this

@[simp] theorem leBytes_length (w : Word) : (leBytes w).length = 8 := rfl

/-- Bit i of a little-endian word is bit i % 8 of byte i / 8. -/
theorem leWord_getLsbD (b0 b1 b2 b3 b4 b5 b6 b7 : Byte) (i : Nat) :
    (leWord b0 b1 b2 b3 b4 b5 b6 b7).getLsbD i =
      if i < 8 then b0.getLsbD i else if i < 16 then b1.getLsbD (i - 8) else if i < 24 then b2.getLsbD (i - 16)
      else if i < 32 then b3.getLsbD (i - 24) else if i < 40 then b4.getLsbD (i - 32)
      else if i < 48 then b5.getLsbD (i - 40) else if i < 56 then b6.getLsbD (i - 48) else b7.getLsbD (i - 56) := by
  change BitVec.getLsbD (w := 8 + 8 + 8 + 8 + 8 + 8 + 8 + 8) (b7 ++ b6 ++ b5 ++ b4 ++ b3 ++ b2 ++ b1 ++ b0) i = _
  simp only [BitVec.getLsbD_append]
  split_ifs <;> first | rfl | omega

theorem byteOf_getLsbD (w : Word) (k i : Nat) :
    (byteOf w k).getLsbD i = (decide (i < 8) && w.getLsbD (8 * k + i)) := by
  simp [byteOf, BitVec.getLsbD_extractLsb']

/-- The eight bytes of a word, put together in the same order, are the word. -/
@[simp] theorem leWord_byteOf (w : Word) :
    leWord (byteOf w 0) (byteOf w 1) (byteOf w 2) (byteOf w 3)
      (byteOf w 4) (byteOf w 5) (byteOf w 6) (byteOf w 7) = w := by
  apply BitVec.eq_of_getLsbD_eq
  intro i hi
  rw [leWord_getLsbD]
  simp only [byteOf_getLsbD]
  split_ifs <;>
    (rw [decide_eq_true (by omega), Bool.true_and]; congr 1; omega)

/-- Byte 0 of a little-endian word is the byte at the lowest address, and so on up. -/
theorem leBytes_leWord (b0 b1 b2 b3 b4 b5 b6 b7 : Byte) :
    leBytes (leWord b0 b1 b2 b3 b4 b5 b6 b7) = [b0, b1, b2, b3, b4, b5, b6, b7] := by
  simp only [leBytes, List.cons.injEq, and_true]
  refine ⟨?_, ?_, ?_, ?_, ?_, ?_, ?_, ?_⟩ <;>
    (apply BitVec.eq_of_getLsbD_eq
     intro i hi
     rw [byteOf_getLsbD, leWord_getLsbD, decide_eq_true hi, Bool.true_and]
     split_ifs <;> first | omega | (congr 1; omega))

end Sys2Proof
end

