-- ==== Sys2Proof/Laws/Decode.lean ====
section
/-! SUPPORT. What the decoder's tables and its field extraction do, said once. -/

namespace Sys2Proof

/-- The opcode nibble of a class: R301 read the other way. -/
def IClass.code : IClass → Nibble
  | .halt => 0x0
  | .nop => 0x1
  | .cmov => 0x2
  | .irmov => 0x3
  | .rmmov => 0x4
  | .mrmov => 0x5
  | .op => 0x6
  | .jump => 0x7
  | .call => 0x8
  | .ret => 0x9
  | .push => 0xA
  | .pop => 0xB

/-- The function nibble of a condition: R302 read the other way. -/
def Cond.code : Cond → Nibble
  | .always => 0
  | .le => 1
  | .l => 2
  | .e => 3
  | .ne => 4
  | .ge => 5
  | .g => 6

/-- The function nibble of an ALU operation: R303 read the other way. -/
def AluFun.code : AluFun → Nibble
  | .add => 0
  | .sub => 1
  | .and => 2
  | .xor => 3

theorem IClass.ofCode_eq_some (h : Nibble) (c : IClass) : IClass.ofCode h = some c ↔ h = c.code := by
  revert h; cases c <;> decide

theorem Cond.ofCode_eq_some (h : Nibble) (c : Cond) : Cond.ofCode h = some c ↔ h = c.code := by
  revert h; cases c <;> decide

theorem AluFun.ofCode_eq_some (h : Nibble) (f : AluFun) : AluFun.ofCode h = some f ↔ h = f.code := by
  revert h; cases f <;> decide

@[simp] theorem IClass.ofCode_code (c : IClass) : IClass.ofCode c.code = some c :=
  (IClass.ofCode_eq_some _ _).2 rfl

@[simp] theorem Cond.ofCode_code (c : Cond) : Cond.ofCode c.code = some c :=
  (Cond.ofCode_eq_some _ _).2 rfl

@[simp] theorem AluFun.ofCode_code (f : AluFun) : AluFun.ofCode f.code = some f :=
  (AluFun.ofCode_eq_some _ _).2 rfl

theorem IClass.ofCode_eq_none (h : Nibble) : IClass.ofCode h = none ↔ 0xC ≤ h.val := by revert h; decide

theorem Cond.ofCode_eq_none (h : Nibble) : Cond.ofCode h = none ↔ 7 ≤ h.val := by revert h; decide

theorem AluFun.ofCode_eq_none (h : Nibble) : AluFun.ofCode h = none ↔ 4 ≤ h.val := by revert h; decide

@[simp] theorem Cond.ofCode_isSome (h : Nibble) : (Cond.ofCode h).isSome = decide (h.val < 7) := by revert h; decide

@[simp] theorem AluFun.ofCode_isSome (h : Nibble) : (AluFun.ofCode h).isSome = decide (h.val < 4) := by
  revert h; decide

/-- The fields of a complete instruction of class `c` at the head of the bytes. -/
def fieldsOf (c : IClass) (f : Nibble) (bs : List Byte) : Fields where
  icode := c
  ifun := f
  rA := if c.hasRegByte then hiNibble (bs.getD 1 0) else 15
  rB := if c.hasRegByte then loNibble (bs.getD 1 0) else 15
  valC := immediateOf c bs
  len := c.length

/-- The field decoder on a first byte of class `c`: its function nibble, then the number of bytes. -/
theorem decodeFields_pair (c : IClass) (f : Nibble) (rest : List Byte) :
    decodeFields (pair c.code f :: rest) =
      if c.takesFun f = true then
        if rest.length + 1 < c.length then .error .addressOutOfBounds
        else .ok (fieldsOf c f (pair c.code f :: rest))
      else .error .invalidEncoding := by
  simp only [decodeFields, hiNibble_pair, loNibble_pair, IClass.ofCode_code, List.length_cons]
  rfl

/-- The field decoder on a first byte that has no class. -/
theorem decodeFields_none (b0 : Byte) (rest : List Byte) (h : IClass.ofCode (hiNibble b0) = none) :
    decodeFields (b0 :: rest) = .error .invalidEncoding := by
  simp only [decodeFields, h]

/-- The length among decoded fields is that of their class (R306). -/
theorem decodeFields_len {bs : List Byte} {f : Fields} (h : decodeFields bs = .ok f) : f.len = f.icode.length := by
  unfold decodeFields at h
  split at h
  · cases h
  · split at h
    · cases h
    · split at h
      · split at h
        · cases h
        · cases h; rfl
      · cases h

/-- The decoder on a first byte of class `c`. -/
theorem decode_pair (c : IClass) (f : Nibble) (rest : List Byte) :
    decode (pair c.code f :: rest) =
      if c.takesFun f = true then
        if rest.length + 1 < c.length then .error .addressOutOfBounds
        else (fieldsOf c f (pair c.code f :: rest)).toInstr
      else .error .invalidEncoding := by
  rw [decode, decodeFields_pair]
  split_ifs <;> rfl

/-- The decoder on a first byte that has no class. -/
theorem decode_none (b0 : Byte) (rest : List Byte) (h : IClass.ofCode (hiNibble b0) = none) :
    decode (b0 :: rest) = .error .invalidEncoding := by
  rw [decode, decodeFields_none b0 rest h]

/-- The fields of a class whose function nibble has a mapping, or is ignored, always stand for an instruction. -/
theorem fieldsOf_toInstr_ok (c : IClass) (f : Nibble) (bs : List Byte) (h : c.takesFun f = true) :
    ∃ i, (fieldsOf c f bs).toInstr = .ok i ∧ i.iclass = c := by
  cases c <;> simp only [IClass.takesFun] at h <;> try exact ⟨_, rfl, rfl⟩
  all_goals
    obtain ⟨x, hx⟩ := Option.isSome_iff_exists.1 h
    refine ⟨_, by simp only [fieldsOf, Fields.toInstr, hx]; rfl, by cases x <;> rfl⟩

/-- Every first byte either has no class or is a class's opcode nibble with a function nibble. -/
theorem firstByte_cases (b0 : Byte) :
    IClass.ofCode (hiNibble b0) = none ∨ ∃ (c : IClass) (f : Nibble), b0 = pair c.code f := by
  cases h : IClass.ofCode (hiNibble b0) with
  | none => exact .inl rfl
  | some c =>
    refine .inr ⟨c, loNibble b0, ?_⟩
    rw [← (IClass.ofCode_eq_some _ _).1 h, pair_nibbles]

/-- An immediate that starts at byte 1. -/
@[simp] theorem immediateAt_one (b : Byte) (v : Word) (rest : List Byte) :
    immediateAt (b :: (leBytes v ++ rest)) 1 = v := by
  simp [immediateAt, leBytes]

/-- An immediate that starts at byte 2. -/
@[simp] theorem immediateAt_two (b c : Byte) (v : Word) (rest : List Byte) :
    immediateAt (b :: c :: (leBytes v ++ rest)) 2 = v := by
  simp [immediateAt, leBytes]

/-- Eight bytes are the little-endian bytes of a word. -/
theorem exists_leBytes (l : List Byte) (h : 8 ≤ l.length) : ∃ v rest, l = leBytes v ++ rest := by
  match l, h with
  | b0 :: b1 :: b2 :: b3 :: b4 :: b5 :: b6 :: b7 :: rest, _ =>
    exact ⟨leWord b0 b1 b2 b3 b4 b5 b6 b7, rest, by rw [leBytes_leWord]; rfl⟩

/-- A byte is a pair of nibbles. -/
theorem exists_pair (l : List Byte) (h : 1 ≤ l.length) : ∃ x y rest, l = pair x y :: rest := by
  match l, h with
  | b :: rest, _ => exact ⟨hiNibble b, loNibble b, rest, by rw [pair_nibbles]⟩

end Sys2Proof
end

