-- ==== Sys2Proof/Laws/Memory.lean ====
section
/-! SUPPORT. Laws of memory: a read after a write, other addresses left alone, and the canonical form kept. -/

namespace Sys2Proof.Machine

/-- A write leaves every other address alone, in canonical form or not. -/
theorem Memory.get_set_ne (m : Memory) (a x : Nat) (v : Byte) (h : x ≠ a) : (m.set a v).get x = m.get x := by
  induction m with
  | nil =>
    simp only [Memory.set]
    split
    · rfl
    · simp only [Memory.get, if_neg (Ne.symm h)]
  | cons c rest ih =>
    obtain ⟨b, w⟩ := c
    simp only [Memory.set]
    split_ifs with h1 h2 h3 h4
    · rfl
    · rw [Memory.get, if_neg (Ne.symm h)]
    · rw [Memory.get, if_neg (by omega)]
    · rw [Memory.get, if_neg (Ne.symm h), Memory.get, if_neg (by omega)]
    · simp only [Memory.get, ih]

theorem Memory.wfFrom_mono {lo lo' : Nat} {m : Memory} (h : m.wfFrom lo' = true) (hl : lo ≤ lo') :
    m.wfFrom lo = true := by
  cases m with
  | nil => rfl
  | cons c rest =>
    simp only [Memory.wfFrom, Bool.and_eq_true, decide_eq_true_eq] at h ⊢
    exact ⟨⟨Nat.le_trans hl h.1.1, h.1.2⟩, h.2⟩

/-- An address below the first one a canonical memory may list reads as unlisted. -/
theorem Memory.get_of_wfFrom {lo : Nat} {m : Memory} (h : m.wfFrom lo = true) {x : Nat} (hx : x < lo) :
    m.get x = Config.unlistedByte := by
  induction m generalizing lo with
  | nil => rfl
  | cons c rest ih =>
    obtain ⟨b, w⟩ := c
    simp only [Memory.wfFrom, Bool.and_eq_true, decide_eq_true_eq] at h
    simp only [Memory.get]
    rw [if_neg (by omega)]
    exact ih h.2 (by omega)

/-- A read after a write to the same address gives the byte written. -/
theorem Memory.get_set_self {lo : Nat} {m : Memory} (h : m.wfFrom lo = true) (a : Nat) (v : Byte) :
    (m.set a v).get a = v := by
  induction m generalizing lo with
  | nil => simp only [Memory.set]; split <;> simp_all [Memory.get]
  | cons c rest ih =>
    obtain ⟨b, w⟩ := c
    simp only [Memory.wfFrom, Bool.and_eq_true, decide_eq_true_eq] at h
    simp only [Memory.set]
    split_ifs with h1 h2 h3 h4
    · rw [h2, Memory.get, if_neg (by omega)]
      exact Memory.get_of_wfFrom h.2 (by omega)
    · simp [Memory.get]
    · rw [h4]; exact Memory.get_of_wfFrom h.2 (by omega)
    · simp [Memory.get]
    · rw [Memory.get, if_neg (by omega)]; exact ih h.2

/-- A write keeps the canonical form. -/
theorem Memory.wfFrom_set {lo : Nat} {m : Memory} (h : m.wfFrom lo = true) {a : Nat} (ha : lo ≤ a) (v : Byte) :
    (m.set a v).wfFrom lo = true := by
  induction m generalizing lo with
  | nil => simp only [Memory.set]; split <;> simp_all [Memory.wfFrom]
  | cons c rest ih =>
    obtain ⟨b, w⟩ := c
    simp only [Memory.wfFrom, Bool.and_eq_true, decide_eq_true_eq] at h
    simp only [Memory.set]
    split_ifs with h1 h2 h3 h4
    · simp only [Memory.wfFrom, Bool.and_eq_true, decide_eq_true_eq]; exact ⟨h.1, h.2⟩
    · simp only [Memory.wfFrom, Bool.and_eq_true, decide_eq_true_eq]; exact ⟨⟨ha, h2⟩, ⟨by omega, h.1.2⟩, h.2⟩
    · exact Memory.wfFrom_mono h.2 (by omega)
    · simp only [Memory.wfFrom, Bool.and_eq_true, decide_eq_true_eq]
      exact ⟨⟨ha, h4⟩, h3 ▸ h.2⟩
    · simp only [Memory.wfFrom, Bool.and_eq_true, decide_eq_true_eq]
      exact ⟨h.1, ih h.2 (by omega)⟩

theorem Memory.wf_set {m : Memory} (h : m.wf = true) (a : Nat) (v : Byte) : (m.set a v).wf = true :=
  Memory.wfFrom_set h (Nat.zero_le _) v

/-- A write below `n` keeps every listed address below `n`. -/
theorem Memory.below_set {n : Nat} {m : Memory} (h : m.below n = true) {a : Nat} (ha : a < n) (v : Byte) :
    (m.set a v).below n = true := by
  induction m with
  | nil => simp only [Memory.set]; split <;> simp_all [Memory.below]
  | cons c rest ih =>
    obtain ⟨b, w⟩ := c
    simp only [Memory.below, Bool.and_eq_true, decide_eq_true_eq] at h
    simp only [Memory.set]
    split_ifs <;> simp_all [Memory.below]

/-! Several bytes. -/

theorem Memory.get_setBytes_outside (bs : List Byte) (m : Memory) (a x : Nat) (h : x < a ∨ a + bs.length ≤ x) :
    (m.setBytes a bs).get x = m.get x := by
  induction bs generalizing m a with
  | nil => rfl
  | cons b rest ih =>
    simp only [List.length_cons] at h
    rw [Memory.setBytes, ih _ _ (by omega), Memory.get_set_ne _ _ _ _ (by omega)]

theorem Memory.wf_setBytes (bs : List Byte) {m : Memory} (h : m.wf = true) (a : Nat) : (m.setBytes a bs).wf = true := by
  induction bs generalizing m a with
  | nil => exact h
  | cons b rest ih => exact ih (Memory.wf_set h a b) (a + 1)

theorem Memory.below_setBytes {n : Nat} (bs : List Byte) {m : Memory} (h : m.below n = true) (a : Nat)
    (ha : a + bs.length ≤ n) : (m.setBytes a bs).below n = true := by
  induction bs generalizing m a with
  | nil => exact h
  | cons b rest ih =>
    simp only [List.length_cons] at ha
    exact ih (Memory.below_set h (by omega) b) (a + 1) (by omega)

theorem Memory.get_setBytes_inside (bs : List Byte) {m : Memory} (h : m.wf = true) (a k : Nat) (hk : k < bs.length) :
    (m.setBytes a bs).get (a + k) = bs[k] := by
  induction bs generalizing m a k with
  | nil => simp at hk
  | cons b rest ih =>
    cases k with
    | zero =>
      rw [Memory.setBytes, Memory.get_setBytes_outside _ _ _ _ (by omega)]
      exact Memory.get_set_self h a b
    | succ k =>
      have := ih (Memory.wf_set h a b) (a + 1) k (by simpa using hk)
      simpa [Memory.setBytes, Nat.add_assoc, Nat.add_comm 1 k] using this

/-- A word read where a word was written gives that word. -/
theorem Memory.getWord_setBytes {m : Memory} (h : m.wf = true) (a : Nat) (v : Word) :
    (m.setBytes a (leBytes v)).getWord a = v := by
  have g : ∀ k (hk : k < 8), (m.setBytes a (leBytes v)).get (a + k) = (leBytes v)[k]'(by simpa using hk) :=
    fun k hk => Memory.get_setBytes_inside (leBytes v) h a k (by simpa using hk)
  have g0 := g 0 (by omega)
  simp only [Nat.add_zero] at g0
  rw [Memory.getWord, g0, g 1 (by omega), g 2 (by omega), g 3 (by omega), g 4 (by omega), g 5 (by omega),
    g 6 (by omega), g 7 (by omega)]
  exact leWord_byteOf v

/-- The canonical form is one list per memory: two canonical memories that read alike are equal. -/
theorem Memory.eq_of_get_eq {lo : Nat} {m n : Memory} (hm : m.wfFrom lo = true) (hn : n.wfFrom lo = true)
    (h : ∀ x, m.get x = n.get x) : m = n := by
  induction m generalizing n lo with
  | nil =>
    cases n with
    | nil => rfl
    | cons c rest =>
      obtain ⟨b, w⟩ := c
      simp only [Memory.wfFrom, Bool.and_eq_true, decide_eq_true_eq] at hn
      have := h b
      simp only [Memory.get, if_true] at this
      exact absurd this.symm hn.1.2
  | cons c rest ih =>
    obtain ⟨b, w⟩ := c
    cases n with
    | nil =>
      simp only [Memory.wfFrom, Bool.and_eq_true, decide_eq_true_eq] at hm
      have := h b
      simp only [Memory.get, if_true] at this
      exact absurd this hm.1.2
    | cons c' rest' =>
      obtain ⟨b', w'⟩ := c'
      simp only [Memory.wfFrom, Bool.and_eq_true, decide_eq_true_eq] at hm hn
      have hb : b = b' := by
        rcases Nat.lt_trichotomy b b' with hlt | heq | hgt
        · have := h b
          rw [Memory.get, if_pos rfl, Memory.get, if_neg (by omega), Memory.get_of_wfFrom hn.2 (by omega)] at this
          exact absurd this hm.1.2
        · exact heq
        · have := h b'
          rw [Memory.get, if_neg (by omega), Memory.get_of_wfFrom hm.2 (by omega), Memory.get, if_pos rfl] at this
          exact absurd this.symm hn.1.2
      subst hb
      have hw : w = w' := by have := h b; simpa [Memory.get] using this
      subst hw
      rw [ih hm.2 hn.2 fun x => ?_]
      have hx := h x
      simp only [Memory.get] at hx
      split_ifs at hx with hbx
      · rw [Memory.get_of_wfFrom hm.2 (by omega), Memory.get_of_wfFrom hn.2 (by omega)]
      · exact hx

end Sys2Proof.Machine
end

