-- ==== Sys2Proof/Laws/State.lean ====
section
/-! SUPPORT. One lemma per field of State for each update the model names, so that no later proof unfolds a record
update. -/

namespace Sys2Proof.Machine

@[simp] theorem errorState_memSize (s : State) (e : CoreError) : (s.errorState e).memSize = s.memSize := rfl
@[simp] theorem errorState_mem (s : State) (e : CoreError) : (s.errorState e).mem = s.mem := rfl
@[simp] theorem errorState_regs (s : State) (e : CoreError) : (s.errorState e).regs = s.regs := rfl
@[simp] theorem errorState_flags (s : State) (e : CoreError) : (s.errorState e).flags = s.flags := rfl
@[simp] theorem errorState_status (s : State) (e : CoreError) : (s.errorState e).status = .errored := rfl
@[simp] theorem errorState_err (s : State) (e : CoreError) : (s.errorState e).err = some e := rfl
@[simp] theorem errorState_pc (s : State) (e : CoreError) : (s.errorState e).pc = s.pc := rfl
@[simp] theorem errorState_cycleCount (s : State) (e : CoreError) : (s.errorState e).cycleCount = s.cycleCount := rfl

@[simp] theorem retire_memSize (s : State) (p : Word) : (s.retire p).memSize = s.memSize := rfl
@[simp] theorem retire_mem (s : State) (p : Word) : (s.retire p).mem = s.mem := rfl
@[simp] theorem retire_regs (s : State) (p : Word) : (s.retire p).regs = s.regs := rfl
@[simp] theorem retire_flags (s : State) (p : Word) : (s.retire p).flags = s.flags := rfl
@[simp] theorem retire_status (s : State) (p : Word) : (s.retire p).status = s.status := rfl
@[simp] theorem retire_err (s : State) (p : Word) : (s.retire p).err = s.err := rfl
@[simp] theorem retire_pc (s : State) (p : Word) : (s.retire p).pc = p := rfl
@[simp] theorem retire_cycleCount (s : State) (p : Word) : (s.retire p).cycleCount = s.cycleCount + 1 := rfl

@[simp] theorem resetOf_memSize (n : Nat) : (State.resetOf n).memSize = n := rfl
@[simp] theorem resetOf_mem (n : Nat) : (State.resetOf n).mem = [] := rfl
@[simp] theorem resetOf_regs (n : Nat) : (State.resetOf n).regs = Vector.replicate numRegs 0 := rfl
@[simp] theorem resetOf_flags (n : Nat) : (State.resetOf n).flags = ⟨false, false, false⟩ := rfl
@[simp] theorem resetOf_status (n : Nat) : (State.resetOf n).status = .running := rfl
@[simp] theorem resetOf_err (n : Nat) : (State.resetOf n).err = none := rfl
@[simp] theorem resetOf_pc (n : Nat) : (State.resetOf n).pc = 0 := rfl
@[simp] theorem resetOf_cycleCount (n : Nat) : (State.resetOf n).cycleCount = 0 := rfl

@[simp] theorem assertReset_eq (s : State) : s.assertReset = State.resetOf s.memSize := rfl

@[simp] theorem withFetchWord_memSize (s : State) (nbits w : Nat) : (s.withFetchWord nbits w).memSize = s.memSize := rfl
@[simp] theorem withFetchWord_regs (s : State) (nbits w : Nat) : (s.withFetchWord nbits w).regs = s.regs := rfl
@[simp] theorem withFetchWord_flags (s : State) (nbits w : Nat) : (s.withFetchWord nbits w).flags = s.flags := rfl
@[simp] theorem withFetchWord_status (s : State) (nbits w : Nat) : (s.withFetchWord nbits w).status = .running := rfl
@[simp] theorem withFetchWord_err (s : State) (nbits w : Nat) : (s.withFetchWord nbits w).err = none := rfl
@[simp] theorem withFetchWord_pc (s : State) (nbits w : Nat) : (s.withFetchWord nbits w).pc = s.pc := rfl
@[simp] theorem withFetchWord_cycleCount (s : State) (nbits w : Nat) :
    (s.withFetchWord nbits w).cycleCount = s.cycleCount := rfl

/-- A running state is the state itself but for the bytes stored at the pc. -/
theorem withFetchWord_of_running (s : State) (nbits w : Nat) (hs : s.status = .running) (he : s.err = none) :
    s.withFetchWord nbits w =
      { s with mem := s.mem.setBytes s.pc.toNat ((tableBytes nbits w).take (s.memSize - s.pc.toNat)) } := by
  unfold State.withFetchWord; rw [← hs, ← he]

end Sys2Proof.Machine
end

