-- ==== Sys2Proof/Laws/Ops.lean ====
section
/-! SUPPORT. What each shared operation can do, said once. -/

namespace Sys2Proof.Machine

@[simp] theorem orRaise_ok {α : Type} (s : State) (a : α) (k : α → StepOutcome) : orRaise s (.ok a) k = k a := rfl

@[simp] theorem orRaise_error {α : Type} (s : State) (e : CoreError) (k : α → StepOutcome) :
    orRaise s (.error e) k = raise s e := rfl

/-- Going on with a stage's value either uses that value or takes its error. -/
theorem orRaise_cases {α : Type} (s : State) (x : Except CoreError α) (k : α → StepOutcome) :
    (∃ a, x = .ok a ∧ orRaise s x k = k a) ∨ (∃ e, x = .error e ∧ orRaise s x k = .next (s.errorState e)) := by
  cases x with
  | ok a => exact .inl ⟨a, rfl, rfl⟩
  | error e => exact .inr ⟨e, rfl, rfl⟩

theorem raise_eq (s : State) (e : CoreError) : raise s e = .next (s.errorState e) := rfl

@[simp] theorem readReg_named (s : State) (r : RegIdx) (h : r.val < numRegs) : readReg s r = .ok s.regs[r.val] := by
  simp [readReg, h]

@[simp] theorem writeReg_named (x : Regs) (r : RegIdx) (v : Word) (h : r.val < numRegs) :
    writeReg x r v = .ok (x.set r.val v) := by
  simp [writeReg, h]

@[simp] theorem readReg_none (s : State) : readReg s 15 = .error .addressOutOfBounds := rfl

@[simp] theorem writeReg_none (x : Regs) (v : Word) : writeReg x 15 v = .error .addressOutOfBounds := rfl

/-- A register field either names a register or is 15. -/
theorem regIdx_cases (r : RegIdx) : r.val < numRegs ∨ r = 15 := by
  rcases Nat.lt_or_ge r.val numRegs with h | h
  · exact .inl h
  · exact .inr (Fin.ext (by have := r.isLt; simp only [numRegs] at h; change r.val = 15; omega))

theorem wordInBounds_iff (n : Nat) (a : Int) : wordInBounds n a = true ↔ 0 ≤ a ∧ a + 8 ≤ n := by
  simp [wordInBounds]

/-- A store that completes was in bounds and gives the memory with the word's eight bytes written. -/
theorem memWrite_ok {s : State} {a : Int} {v : Word} {m : Memory} (h : memWrite s a v = .ok m) :
    0 ≤ a ∧ a + 8 ≤ s.memSize ∧ m = s.mem.setBytes a.toNat (leBytes v) := by
  unfold memWrite at h
  split at h
  · next hb => cases h; exact ⟨((wordInBounds_iff _ _).1 hb).1, ((wordInBounds_iff _ _).1 hb).2, rfl⟩
  · cases h

/-- A load that completes was in bounds and gives the word there. -/
theorem memRead_ok {s : State} {a : Int} {v : Word} (h : memRead s a = .ok v) :
    0 ≤ a ∧ a + 8 ≤ s.memSize ∧ v = s.mem.getWord a.toNat := by
  unfold memRead at h
  split at h
  · next hb => cases h; exact ⟨((wordInBounds_iff _ _).1 hb).1, ((wordInBounds_iff _ _).1 hb).2, rfl⟩
  · cases h

/-- A store keeps memory canonical and inside [0, MEM_SIZE). -/
theorem memWrite_keeps {s : State} {a : Int} {v : Word} {m : Memory} (h : memWrite s a v = .ok m)
    (hw : s.mem.wf = true) (hb : s.mem.below s.memSize = true) : m.wf = true ∧ m.below s.memSize = true := by
  obtain ⟨h0, h8, rfl⟩ := memWrite_ok h
  exact ⟨Memory.wf_setBytes _ hw _, Memory.below_setBytes _ hb _ (by simp only [leBytes_length]; omega)⟩

/-- The loader keeps memory canonical and inside [0, n). -/
theorem loadHexBytes_keeps (n : Nat) (cs : List Char) {m : Memory} (a : Nat) (hw : m.wf = true)
    (hb : m.below n = true) : (loadHexBytes n m a cs).1.wf = true ∧ (loadHexBytes n m a cs).1.below n = true := by
  induction cs using List.twoStepInduction generalizing m a with
  | nil => exact ⟨hw, hb⟩
  | singleton c => exact ⟨hw, hb⟩
  | cons_cons c d rest ih _ =>
    simp only [loadHexBytes]
    split
    · split
      · next h => exact ih _ (Memory.wf_set hw _ _) (Memory.below_set hb h _)
      · exact ⟨hw, hb⟩
    · exact ⟨hw, hb⟩

theorem loadLine_keeps (n : Nat) (line : List Char) {m : Memory} (hw : m.wf = true) (hb : m.below n = true) :
    (loadLine n m line).1.wf = true ∧ (loadLine n m line).1.below n = true := by
  unfold loadLine
  split
  · split
    · unfold loadBody
      split
      · exact loadHexBytes_keeps n _ _ hw hb
      · exact ⟨hw, hb⟩
    · exact ⟨hw, hb⟩
  · exact ⟨hw, hb⟩

theorem loadImage_keeps (n : Nat) (lines : List (List Char)) {m : Memory} (hw : m.wf = true) (hb : m.below n = true) :
    (loadImage n m lines).1.wf = true ∧ (loadImage n m lines).1.below n = true := by
  induction lines generalizing m with
  | nil => exact ⟨hw, hb⟩
  | cons line rest ih => exact ih (loadLine_keeps n line hw hb).1 (loadLine_keeps n line hw hb).2

/-- The bytes an instruction fetch sees: those at the pc, as far as memory goes. -/
theorem bytesFrom_getElem (s : State) (k a i : Nat) (h : i < (bytesFrom s a k).length) :
    (bytesFrom s a k)[i] = s.mem.get (a + i) := by
  induction k generalizing a i with
  | zero => simp [bytesFrom] at h
  | succ k ih =>
    simp only [bytesFrom] at h ⊢
    split
    · next ha =>
      cases i with
      | zero => simp
      | succ i =>
        simp only [List.getElem_cons_succ]
        rw [ih, Nat.add_assoc, Nat.add_comm 1 i]
    · next ha => simp [ha] at h

theorem bytesFrom_length (s : State) (k a : Nat) : (bytesFrom s a k).length = min k (s.memSize - a) := by
  induction k generalizing a with
  | zero => simp [bytesFrom]
  | succ k ih =>
    simp only [bytesFrom]
    split
    · simp only [List.length_cons, ih]; omega
    · simp only [List.length_nil]; omega

end Sys2Proof.Machine
end

