-- ==== Sys2Proof/Laws/Exec.lean ====
section
/-! SUPPORT. What each shared rule of an instruction family can do, said once: the state it commits, or the one error
executing can raise, addressOutOfBounds (R601). -/

namespace Sys2Proof.Machine

/-- A conditional move either raises or writes rB and advances. -/
theorem moveIf_cases (c : Cond) (rA rB : RegIdx) (s : State) :
    moveIf c rA rB s = .next (s.errorState .addressOutOfBounds) ∨
    ∃ (hA : rA.val < numRegs) (hB : rB.val < numRegs), moveIf c rA rB s =
      .next ({ s with regs := s.regs.set rB.val (if s.flags.holds c then s.regs[rA.val] else s.regs[rB.val]) }.retire
        (valP s 2)) := by
  rcases regIdx_cases rA with hA | rfl
  · rcases regIdx_cases rB with hB | rfl
    · exact .inr ⟨hA, hB, by simp only [moveIf, readReg_named, writeReg_named, hA, hB, orRaise_ok]⟩
    · exact .inl (by simp only [moveIf, readReg_named, hA, orRaise_ok, readReg_none, orRaise_error, raise_eq])
  · exact .inl (by simp only [moveIf, readReg_none, orRaise_error, raise_eq])

/-- An arithmetic or logic operation either raises or writes rB and the flags and advances. -/
theorem aluOp_cases (f : AluFun) (rA rB : RegIdx) (s : State) :
    aluOp f rA rB s = .next (s.errorState .addressOutOfBounds) ∨
    ∃ (hA : rA.val < numRegs) (hB : rB.val < numRegs), aluOp f rA rB s =
      .next ({ s with
        regs := s.regs.set rB.val (aluResult f s.regs[rB.val] s.regs[rA.val])
        flags := aluFlags f s.regs[rB.val] s.regs[rA.val] }.retire (valP s 2)) := by
  rcases regIdx_cases rA with hA | rfl
  · rcases regIdx_cases rB with hB | rfl
    · exact .inr ⟨hA, hB, by simp only [aluOp, readReg_named, writeReg_named, hA, hB, orRaise_ok]⟩
    · exact .inl (by simp only [aluOp, readReg_named, hA, orRaise_ok, readReg_none, orRaise_error, raise_eq])
  · exact .inl (by simp only [aluOp, readReg_none, orRaise_error, raise_eq])

/-- A jump only sets the pc. -/
theorem jumpIf_eq (c : Cond) (dest : Word) (s : State) :
    jumpIf c dest s = .next (s.retire (if s.flags.holds c then dest else valP s 9)) := rfl

/-- irmovq either raises or writes rB and advances. -/
theorem execIrmovq_cases (rB : RegIdx) (v : Word) (s : State) :
    execIrmovq rB v s = .next (s.errorState .addressOutOfBounds) ∨
    ∃ hB : rB.val < numRegs, execIrmovq rB v s =
      .next ({ s with regs := s.regs.set rB.val v }.retire (valP s 10)) := by
  rcases regIdx_cases rB with hB | rfl
  · exact .inr ⟨hB, by simp only [execIrmovq, writeReg_named, hB, orRaise_ok]⟩
  · exact .inl (by simp only [execIrmovq, writeReg_none, orRaise_error, raise_eq])

/-- A load in two cases. -/
theorem memRead_cases (s : State) (a : Int) :
    memRead s a = .error .addressOutOfBounds ∨ (0 ≤ a ∧ a + 8 ≤ s.memSize ∧ memRead s a = .ok (s.mem.getWord a.toNat)) := by
  unfold memRead
  split
  · next h => exact .inr ⟨((wordInBounds_iff _ _).1 h).1, ((wordInBounds_iff _ _).1 h).2, rfl⟩
  · exact .inl rfl

/-- A store in two cases. -/
theorem memWrite_cases (s : State) (a : Int) (v : Word) :
    memWrite s a v = .error .addressOutOfBounds ∨
    (0 ≤ a ∧ a + 8 ≤ s.memSize ∧ memWrite s a v = .ok (s.mem.setBytes a.toNat (leBytes v))) := by
  unfold memWrite
  split
  · next h => exact .inr ⟨((wordInBounds_iff _ _).1 h).1, ((wordInBounds_iff _ _).1 h).2, rfl⟩
  · exact .inl rfl

/-- rmmovq either raises or stores a word in bounds and advances. -/
theorem execRmmovq_cases (rA rB : RegIdx) (d : Word) (s : State) :
    execRmmovq rA rB d s = .next (s.errorState .addressOutOfBounds) ∨
    ∃ (hA : rA.val < numRegs) (hB : rB.val < numRegs),
      0 ≤ dispAddr s.regs[rB.val] d ∧ dispAddr s.regs[rB.val] d + 8 ≤ s.memSize ∧
      execRmmovq rA rB d s =
        .next ({ s with mem := s.mem.setBytes (dispAddr s.regs[rB.val] d).toNat (leBytes s.regs[rA.val]) }.retire
          (valP s 10)) := by
  rcases regIdx_cases rA with hA | rfl
  · rcases regIdx_cases rB with hB | rfl
    · rcases memWrite_cases s (dispAddr s.regs[rB.val] d) s.regs[rA.val] with h | ⟨h0, h8, h⟩
      · exact .inl (by simp only [execRmmovq, readReg_named, hA, hB, orRaise_ok, h, orRaise_error, raise_eq])
      · exact .inr ⟨hA, hB, h0, h8, by simp only [execRmmovq, readReg_named, hA, hB, orRaise_ok, h]⟩
    · exact .inl (by simp only [execRmmovq, readReg_named, hA, orRaise_ok, readReg_none, orRaise_error, raise_eq])
  · exact .inl (by simp only [execRmmovq, readReg_none, orRaise_error, raise_eq])

/-- mrmovq either raises or loads a word in bounds into rA and advances. -/
theorem execMrmovq_cases (rA rB : RegIdx) (d : Word) (s : State) :
    execMrmovq rA rB d s = .next (s.errorState .addressOutOfBounds) ∨
    ∃ (hA : rA.val < numRegs) (hB : rB.val < numRegs),
      0 ≤ dispAddr s.regs[rB.val] d ∧ dispAddr s.regs[rB.val] d + 8 ≤ s.memSize ∧
      execMrmovq rA rB d s =
        .next ({ s with regs := s.regs.set rA.val (s.mem.getWord (dispAddr s.regs[rB.val] d).toNat) }.retire
          (valP s 10)) := by
  rcases regIdx_cases rB with hB | rfl
  · rcases memRead_cases s (dispAddr s.regs[rB.val] d) with h | ⟨h0, h8, h⟩
    · exact .inl (by simp only [execMrmovq, readReg_named, hB, orRaise_ok, h, orRaise_error, raise_eq])
    · rcases regIdx_cases rA with hA | rfl
      · exact .inr ⟨hA, hB, h0, h8, by simp only [execMrmovq, readReg_named, writeReg_named, hA, hB, orRaise_ok, h]⟩
      · exact .inl (by
          simp only [execMrmovq, readReg_named, hB, orRaise_ok, h, writeReg_none, orRaise_error, raise_eq])
  · exact .inl (by simp only [execMrmovq, readReg_none, orRaise_error, raise_eq])

/-- call either raises or stores the return address in bounds, moves SP and jumps. -/
theorem execCall_cases (dest : Word) (s : State) :
    execCall dest s = .next (s.errorState .addressOutOfBounds) ∨
    (0 ≤ pushAddr (s.regs[SP.val]'SP_named) ∧ pushAddr (s.regs[SP.val]'SP_named) + 8 ≤ s.memSize ∧
      execCall dest s =
        .next ({ s with
          mem := s.mem.setBytes (pushAddr (s.regs[SP.val]'SP_named)).toNat (leBytes (valP s 9))
          regs := s.regs.set SP.val (s.regs[SP.val]'SP_named - stackDelta) SP_named }.retire dest)) := by
  rcases memWrite_cases s (pushAddr (s.regs[SP.val]'SP_named)) (valP s 9) with h | ⟨h0, h8, h⟩
  · exact .inl (by simp only [execCall, readReg_named, SP_named, orRaise_ok, h, orRaise_error, raise_eq])
  · exact .inr ⟨h0, h8, by simp only [execCall, readReg_named, writeReg_named, SP_named, orRaise_ok, h]⟩

/-- pushq either raises or stores rA in bounds, moves SP and advances. -/
theorem execPushq_cases (rA : RegIdx) (s : State) :
    execPushq rA s = .next (s.errorState .addressOutOfBounds) ∨
    ∃ hA : rA.val < numRegs,
      0 ≤ pushAddr (s.regs[SP.val]'SP_named) ∧ pushAddr (s.regs[SP.val]'SP_named) + 8 ≤ s.memSize ∧
      execPushq rA s =
        .next ({ s with
          mem := s.mem.setBytes (pushAddr (s.regs[SP.val]'SP_named)).toNat (leBytes s.regs[rA.val])
          regs := s.regs.set SP.val (s.regs[SP.val]'SP_named - stackDelta) SP_named }.retire (valP s 2)) := by
  rcases regIdx_cases rA with hA | rfl
  · rcases memWrite_cases s (pushAddr (s.regs[SP.val]'SP_named)) s.regs[rA.val] with h | ⟨h0, h8, h⟩
    · exact .inl (by simp only [execPushq, readReg_named, hA, SP_named, orRaise_ok, h, orRaise_error, raise_eq])
    · exact .inr ⟨hA, h0, h8, by simp only [execPushq, readReg_named, writeReg_named, hA, SP_named, orRaise_ok, h]⟩
  · exact .inl (by simp only [execPushq, readReg_none, orRaise_error, raise_eq])

/-- ret either raises or loads the pc from the old SP and moves SP. -/
theorem execRet_cases (s : State) :
    execRet s = .next (s.errorState .addressOutOfBounds) ∨
    (0 ≤ popAddr (s.regs[SP.val]'SP_named) ∧ popAddr (s.regs[SP.val]'SP_named) + 8 ≤ s.memSize ∧
      execRet s =
        .next ({ s with regs := s.regs.set SP.val (s.regs[SP.val]'SP_named + stackDelta) SP_named }.retire
          (s.mem.getWord (popAddr (s.regs[SP.val]'SP_named)).toNat))) := by
  rcases memRead_cases s (popAddr (s.regs[SP.val]'SP_named)) with h | ⟨h0, h8, h⟩
  · exact .inl (by simp only [execRet, readReg_named, SP_named, orRaise_ok, h, orRaise_error, raise_eq])
  · exact .inr ⟨h0, h8, by simp only [execRet, readReg_named, writeReg_named, SP_named, orRaise_ok, h]⟩

/-- popq either raises or loads rA from the old SP, after SP has moved, and advances. -/
theorem execPopq_cases (rA : RegIdx) (s : State) :
    execPopq rA s = .next (s.errorState .addressOutOfBounds) ∨
    ∃ hA : rA.val < numRegs,
      0 ≤ popAddr (s.regs[SP.val]'SP_named) ∧ popAddr (s.regs[SP.val]'SP_named) + 8 ≤ s.memSize ∧
      execPopq rA s =
        .next ({ s with
          regs := (s.regs.set SP.val (s.regs[SP.val]'SP_named + stackDelta) SP_named).set rA.val
            (s.mem.getWord (popAddr (s.regs[SP.val]'SP_named)).toNat) }.retire (valP s 2)) := by
  rcases memRead_cases s (popAddr (s.regs[SP.val]'SP_named)) with h | ⟨h0, h8, h⟩
  · exact .inl (by simp only [execPopq, readReg_named, SP_named, orRaise_ok, h, orRaise_error, raise_eq])
  · rcases regIdx_cases rA with hA | rfl
    · exact .inr ⟨hA, h0, h8, by simp only [execPopq, readReg_named, writeReg_named, hA, SP_named, orRaise_ok, h]⟩
    · exact .inl (by
        simp only [execPopq, readReg_named, writeReg_named, SP_named, orRaise_ok, h, writeReg_none, orRaise_error,
          raise_eq])

end Sys2Proof.Machine
end

