-- ==== Sys2Proof/Laws/PerInstr.lean ====
section
/-! SUPPORT. Per-instruction facts about the encoding, one lemma per constructor. -/

namespace Sys2Proof.Laws

/-- Whatever the ignored nibbles hold, an instruction's bytes are as many as its length says (R306), and their first
byte's opcode nibble is its class's (R301). -/
def EncodeShape.Statement (i : Instr) : Prop :=
  ∀ f r : Nibble, (encodeWith f r i).length = i.length ∧
    ((encodeWith f r i).head?.map hiNibble).bind IClass.ofCode = some i.iclass

theorem EncodeShape.halt : EncodeShape.Statement .halt := fun f r => by
  refine ⟨rfl, ?_⟩
  simp only [encodeWith, List.head?_cons, Option.map_some, hiNibble_pair]; rfl

theorem EncodeShape.nop : EncodeShape.Statement .nop := fun f r => by
  refine ⟨rfl, ?_⟩
  simp only [encodeWith, List.head?_cons, Option.map_some, hiNibble_pair]; rfl

theorem EncodeShape.rrmovq (rA : RegIdx) (rB : RegIdx) : EncodeShape.Statement (.rrmovq rA rB) := fun f r => by
  refine ⟨rfl, ?_⟩
  simp only [encodeWith, List.head?_cons, Option.map_some, hiNibble_pair]; rfl

theorem EncodeShape.cmovle (rA : RegIdx) (rB : RegIdx) : EncodeShape.Statement (.cmovle rA rB) := fun f r => by
  refine ⟨rfl, ?_⟩
  simp only [encodeWith, List.head?_cons, Option.map_some, hiNibble_pair]; rfl

theorem EncodeShape.cmovl (rA : RegIdx) (rB : RegIdx) : EncodeShape.Statement (.cmovl rA rB) := fun f r => by
  refine ⟨rfl, ?_⟩
  simp only [encodeWith, List.head?_cons, Option.map_some, hiNibble_pair]; rfl

theorem EncodeShape.cmove (rA : RegIdx) (rB : RegIdx) : EncodeShape.Statement (.cmove rA rB) := fun f r => by
  refine ⟨rfl, ?_⟩
  simp only [encodeWith, List.head?_cons, Option.map_some, hiNibble_pair]; rfl

theorem EncodeShape.cmovne (rA : RegIdx) (rB : RegIdx) : EncodeShape.Statement (.cmovne rA rB) := fun f r => by
  refine ⟨rfl, ?_⟩
  simp only [encodeWith, List.head?_cons, Option.map_some, hiNibble_pair]; rfl

theorem EncodeShape.cmovge (rA : RegIdx) (rB : RegIdx) : EncodeShape.Statement (.cmovge rA rB) := fun f r => by
  refine ⟨rfl, ?_⟩
  simp only [encodeWith, List.head?_cons, Option.map_some, hiNibble_pair]; rfl

theorem EncodeShape.cmovg (rA : RegIdx) (rB : RegIdx) : EncodeShape.Statement (.cmovg rA rB) := fun f r => by
  refine ⟨rfl, ?_⟩
  simp only [encodeWith, List.head?_cons, Option.map_some, hiNibble_pair]; rfl

theorem EncodeShape.irmovq (rB : RegIdx) (v : Word) : EncodeShape.Statement (.irmovq rB v) := fun f r => by
  refine ⟨rfl, ?_⟩
  simp only [encodeWith, List.head?_cons, Option.map_some, hiNibble_pair]; rfl

theorem EncodeShape.rmmovq (rA : RegIdx) (rB : RegIdx) (d : Word) : EncodeShape.Statement (.rmmovq rA rB d) := fun f r => by
  refine ⟨rfl, ?_⟩
  simp only [encodeWith, List.head?_cons, Option.map_some, hiNibble_pair]; rfl

theorem EncodeShape.mrmovq (rA : RegIdx) (rB : RegIdx) (d : Word) : EncodeShape.Statement (.mrmovq rA rB d) := fun f r => by
  refine ⟨rfl, ?_⟩
  simp only [encodeWith, List.head?_cons, Option.map_some, hiNibble_pair]; rfl

theorem EncodeShape.addq (rA : RegIdx) (rB : RegIdx) : EncodeShape.Statement (.addq rA rB) := fun f r => by
  refine ⟨rfl, ?_⟩
  simp only [encodeWith, List.head?_cons, Option.map_some, hiNibble_pair]; rfl

theorem EncodeShape.subq (rA : RegIdx) (rB : RegIdx) : EncodeShape.Statement (.subq rA rB) := fun f r => by
  refine ⟨rfl, ?_⟩
  simp only [encodeWith, List.head?_cons, Option.map_some, hiNibble_pair]; rfl

theorem EncodeShape.andq (rA : RegIdx) (rB : RegIdx) : EncodeShape.Statement (.andq rA rB) := fun f r => by
  refine ⟨rfl, ?_⟩
  simp only [encodeWith, List.head?_cons, Option.map_some, hiNibble_pair]; rfl

theorem EncodeShape.xorq (rA : RegIdx) (rB : RegIdx) : EncodeShape.Statement (.xorq rA rB) := fun f r => by
  refine ⟨rfl, ?_⟩
  simp only [encodeWith, List.head?_cons, Option.map_some, hiNibble_pair]; rfl

theorem EncodeShape.jmp (dest : Word) : EncodeShape.Statement (.jmp dest) := fun f r => by
  refine ⟨rfl, ?_⟩
  simp only [encodeWith, List.head?_cons, Option.map_some, hiNibble_pair]; rfl

theorem EncodeShape.jle (dest : Word) : EncodeShape.Statement (.jle dest) := fun f r => by
  refine ⟨rfl, ?_⟩
  simp only [encodeWith, List.head?_cons, Option.map_some, hiNibble_pair]; rfl

theorem EncodeShape.jl (dest : Word) : EncodeShape.Statement (.jl dest) := fun f r => by
  refine ⟨rfl, ?_⟩
  simp only [encodeWith, List.head?_cons, Option.map_some, hiNibble_pair]; rfl

theorem EncodeShape.je (dest : Word) : EncodeShape.Statement (.je dest) := fun f r => by
  refine ⟨rfl, ?_⟩
  simp only [encodeWith, List.head?_cons, Option.map_some, hiNibble_pair]; rfl

theorem EncodeShape.jne (dest : Word) : EncodeShape.Statement (.jne dest) := fun f r => by
  refine ⟨rfl, ?_⟩
  simp only [encodeWith, List.head?_cons, Option.map_some, hiNibble_pair]; rfl

theorem EncodeShape.jge (dest : Word) : EncodeShape.Statement (.jge dest) := fun f r => by
  refine ⟨rfl, ?_⟩
  simp only [encodeWith, List.head?_cons, Option.map_some, hiNibble_pair]; rfl

theorem EncodeShape.jg (dest : Word) : EncodeShape.Statement (.jg dest) := fun f r => by
  refine ⟨rfl, ?_⟩
  simp only [encodeWith, List.head?_cons, Option.map_some, hiNibble_pair]; rfl

theorem EncodeShape.call (dest : Word) : EncodeShape.Statement (.call dest) := fun f r => by
  refine ⟨rfl, ?_⟩
  simp only [encodeWith, List.head?_cons, Option.map_some, hiNibble_pair]; rfl

theorem EncodeShape.ret : EncodeShape.Statement .ret := fun f r => by
  refine ⟨rfl, ?_⟩
  simp only [encodeWith, List.head?_cons, Option.map_some, hiNibble_pair]; rfl

theorem EncodeShape.pushq (rA : RegIdx) : EncodeShape.Statement (.pushq rA) := fun f r => by
  refine ⟨rfl, ?_⟩
  simp only [encodeWith, List.head?_cons, Option.map_some, hiNibble_pair]; rfl

theorem EncodeShape.popq (rA : RegIdx) : EncodeShape.Statement (.popq rA) := fun f r => by
  refine ⟨rfl, ?_⟩
  simp only [encodeWith, List.head?_cons, Option.map_some, hiNibble_pair]; rfl

end Sys2Proof.Laws
end

