-- ==== Sys2Proof/Laws/Step.lean ====
section
/-! SUPPORT. One step by the status it starts from, the host's run of several steps, and the per-stage view. -/

namespace Sys2Proof.Machine

theorem step_running {s : State} (h : s.status = .running) :
    step s = match decodeAt s with
      | .ok i => exec i s
      | .error e => raise s e := by
  unfold step
  split <;> first | rfl | simp_all

theorem step_halted {s : State} (h : s.status = .halted) : step s = .next s := by
  simp only [step, h]

theorem step_errored {s : State} (h : s.status = .errored) : step s = .next s := by
  simp only [step, h]

theorem run_zero (s : State) : Sys2Proof.core.run 0 s = .next s := rfl

theorem run_succ (M : Host.Core) (n : Nat) (s : M.State) :
    M.run (n + 1) s = match M.step s with
      | .next t => M.run n t
      | .fault r => .fault r
      | .refused r => .refused r := rfl

/-- A run whose first step answers a next state goes on from there. -/
theorem run_succ_of_step {s t : State} (n : Nat) (h : step s = .next t) :
    Sys2Proof.core.run (n + 1) s = Sys2Proof.core.run n t := by
  have h' : Sys2Proof.core.step s = .next t := h
  have hr := run_succ Sys2Proof.core n s
  rw [h'] at hr
  exact hr

/-! The stages after decode keep the decoded instruction and valP. -/

/-- What decode leaves in the record: the fields it read, their length, and the next sequential address. -/
theorem decodeStage_ok {s : State} {c : Scratch} (h : decodeStage s = .ok c) :
    decodeFields (fetch s) = .ok c.ins ∧ c.ins.len = c.ins.icode.length ∧ c.valP = valP s c.ins.len := by
  unfold decodeStage at h
  split at h
  · next f hf => cases h; exact ⟨hf, decodeFields_len hf, rfl⟩
  · cases h

theorem operandReadStage_keeps {s : State} {c d : Scratch} (h : operandReadStage s c = .ok d) :
    d.ins = c.ins ∧ d.valP = c.valP := by
  unfold operandReadStage at h
  split at h <;> cases h
  exact ⟨rfl, rfl⟩

theorem executeStage_keeps {s : State} {c d : Scratch} (h : executeStage s c = .ok d) :
    d.ins = c.ins ∧ d.valP = c.valP := by
  unfold executeStage at h
  split at h <;> cases h
  exact ⟨rfl, rfl⟩

theorem memoryStage_keeps {s : State} {c d : Scratch} (h : memoryStage s c = .ok d) :
    d.ins = c.ins ∧ d.valP = c.valP := by
  unfold memoryStage at h
  split at h
  · cases h; exact ⟨rfl, rfl⟩
  all_goals split at h <;> cases h; exact ⟨rfl, rfl⟩

theorem writebackStage_keeps {s : State} {c d : Scratch} (h : writebackStage s c = .ok d) : d = c := by
  unfold writebackStage at h
  split at h <;> cases h
  rfl

/-! The per-stage view. -/

theorem stageTrace_running {s : State} (h : s.status = .running) :
    stageTrace s = match decodeStage s with
      | .ok c => { stage := .decode, state := s, scratch := some c } :: viewsFrom s c middleStages
      | .error e => [raisedView s .decode none e] := by
  unfold stageTrace
  split <;> first | rfl | simp_all

@[simp] theorem viewsFrom_nil (s : State) (c : Scratch) : viewsFrom s c [] = pcUpdateView s c := rfl

/-- A stage that completes shows its record and the state of the start of the cycle, and the next stage follows. -/
theorem viewsFrom_ok {s : State} {c c' : Scratch} {n : Stage} {f : State → Scratch → Except CoreError Scratch}
    (rest : List (Stage × (State → Scratch → Except CoreError Scratch))) (h : f s c = .ok c') :
    viewsFrom s c ((n, f) :: rest) = { stage := n, state := s, scratch := some c' } :: viewsFrom s c' rest := by
  simp only [viewsFrom, h]

/-- A stage that raises is the last one shown. -/
theorem viewsFrom_error {s : State} {c : Scratch} {e : CoreError} {n : Stage}
    {f : State → Scratch → Except CoreError Scratch}
    (rest : List (Stage × (State → Scratch → Except CoreError Scratch))) (h : f s c = .error e) :
    viewsFrom s c ((n, f) :: rest) = [raisedView s n (some c) e] := by
  simp only [viewsFrom, h]

theorem pcUpdateView_of_commit {s t : State} {c : Scratch} (h : commit s c = .next t) :
    pcUpdateView s c = [{ stage := .pcUpdate, state := t, scratch := some c }] := by
  simp only [pcUpdateView, h]

end Sys2Proof.Machine
end

