-- ==== Sys2Proof/Tests/Slice0.lean ====
section
/-! SUPPORT. Tests of the model. The words and the expected results are those of spec 95_test_vectors.md (its section is
named above each group) or are worked out by hand from the rule named; none was read off the model. At the end, one witness
for the hypotheses of each statement that has some. -/

namespace Sys2Proof.Tests
open Sys2Proof Sys2Proof.Machine

/-! ## Helpers -/

/-- The state one step leads to, if it leads to one. -/
def run1 (s : State) : Option State :=
  match step s with
  | .next t => some t
  | .fault _ => none
  | .refused _ => none

/-- The state an instruction leads to, if it leads to one. -/
def after (i : Instr) (s : State) : Option State :=
  match exec i s with
  | .next t => some t
  | .fault _ => none
  | .refused _ => none

/-- The instruction decoded, or the error as `none`. -/
def decodedTo (bs : List Byte) (i : Instr) : Bool :=
  match decode bs with
  | .ok j => decide (j = i)
  | .error _ => false

/-- The decoder raises this error on the bytes. -/
def rejects (bs : List Byte) (e : CoreError) : Bool :=
  match decode bs with
  | .ok _ => false
  | .error e' => decide (e' = e)

/-- A running machine of 0x1000 bytes at `pc`, with bytes at it, some registers, some words of data, and flags S, Z, O. -/
def setup (pc : Word) (bs : List Byte) (xs : List (Fin 15 × Word)) (words : List (Nat × Word))
    (fl : Bool × Bool × Bool) : State :=
  { State.resetOf 0x1000 with
    pc := pc
    mem := words.foldl (fun m p => m.setBytes p.1 (leBytes p.2)) (Memory.setBytes [] pc.toNat bs)
    regs := xs.foldl (fun x p => x.set p.1.val p.2) (State.resetOf 0x1000).regs
    flags := { sign := fl.1, zero := fl.2.1, overflow := fl.2.2 } }

/-- The largest and the least signed word, MAX and MIN of 95_test_vectors.md. -/
def wmax : Word := 0x7FFFFFFFFFFFFFFF
def wmin : Word := 0x8000000000000000

/-- The machine ended in this error with the rest of its state as before. -/
def failsWith (s : State) (e : CoreError) : Bool :=
  decide (run1 s = some { s with status := .errored, err := some e })

/-! ## WellFormed: each check refuses a term of its own -/

theorem test_wf_smoke :
    (Instr.rrmovq 15 rax).wf = false ∧ (Instr.rrmovq rax 15).wf = false ∧
    (Instr.cmovle 15 rax).wf = false ∧ (Instr.cmovle rax 15).wf = false ∧
    (Instr.cmovl 15 rax).wf = false ∧ (Instr.cmovl rax 15).wf = false ∧
    (Instr.cmove 15 rax).wf = false ∧ (Instr.cmove rax 15).wf = false ∧
    (Instr.cmovne 15 rax).wf = false ∧ (Instr.cmovne rax 15).wf = false ∧
    (Instr.cmovge 15 rax).wf = false ∧ (Instr.cmovge rax 15).wf = false ∧
    (Instr.cmovg 15 rax).wf = false ∧ (Instr.cmovg rax 15).wf = false ∧
    (Instr.irmovq 15 0).wf = false ∧
    (Instr.rmmovq 15 rax 0).wf = false ∧ (Instr.rmmovq rax 15 0).wf = false ∧
    (Instr.mrmovq 15 rax 0).wf = false ∧ (Instr.mrmovq rax 15 0).wf = false ∧
    (Instr.addq 15 rax).wf = false ∧ (Instr.addq rax 15).wf = false ∧
    (Instr.subq 15 rax).wf = false ∧ (Instr.subq rax 15).wf = false ∧
    (Instr.andq 15 rax).wf = false ∧ (Instr.andq rax 15).wf = false ∧
    (Instr.xorq 15 rax).wf = false ∧ (Instr.xorq rax 15).wf = false ∧
    (Instr.pushq 15).wf = false ∧ (Instr.popq 15).wf = false := by decide

/-- Index 14 is a register like the others (R101). -/
theorem test_wf_accepts :
    (Instr.rrmovq r14 rax).wf = true ∧ (Instr.irmovq r14 0).wf = true ∧ (Instr.popq r14).wf = true := by decide

/-! ## Decode: a written-out word for every constructor (95_test_vectors.md section 2.1; R305 for those it does not list) -/

theorem test_decode_halt : decodedTo [0x00] .halt = true ∧ decodedTo [0x05] .halt = true := by decide
theorem test_decode_nop : decodedTo [0x1F] .nop = true ∧ decodedTo [0x10] .nop = true := by decide
theorem test_decode_moves :
    decodedTo [0x20, 0x03] (.rrmovq rax rbx) = true ∧ decodedTo [0x21, 0x12] (.cmovle rcx rdx) = true ∧
    decodedTo [0x22, 0x12] (.cmovl rcx rdx) = true ∧ decodedTo [0x23, 0x03] (.cmove rax rbx) = true ∧
    decodedTo [0x24, 0xE0] (.cmovne r14 rax) = true ∧ decodedTo [0x25, 0x12] (.cmovge rcx rdx) = true ∧
    decodedTo [0x26, 0x45] (.cmovg rsp rbp) = true := by decide
theorem test_decode_irmovq :
    decodedTo [0x30, 0xF4, 0x00, 0x02, 0, 0, 0, 0, 0, 0] (.irmovq rsp 0x200) = true ∧
    decodedTo [0x3A, 0x84, 0x00, 0x02, 0, 0, 0, 0, 0, 0] (.irmovq rsp 0x200) = true := by decide
/-- Every byte of the immediate at its place (R308): the byte at the lowest address is the least significant. -/
theorem test_decode_immediate :
    decodedTo [0x30, 0xF0, 0x88, 0x77, 0x66, 0x55, 0x44, 0x33, 0x22, 0x11] (.irmovq rax 0x1122334455667788) = true ∧
    decodedTo [0x70, 0x88, 0x77, 0x66, 0x55, 0x44, 0x33, 0x22, 0x11] (.jmp 0x1122334455667788) = true := by decide
theorem test_decode_rmmovq :
    decodedTo [0x40, 0x03, 0xF8, 0xFF, 0xFF, 0xFF, 0xFF, 0xFF, 0xFF, 0xFF] (.rmmovq rax rbx (-8)) = true := by decide
theorem test_decode_mrmovq :
    decodedTo [0x50, 0x13, 0x08, 0, 0, 0, 0, 0, 0, 0] (.mrmovq rcx rbx 8) = true := by decide
theorem test_decode_alu :
    decodedTo [0x60, 0x30] (.addq rbx rax) = true ∧ decodedTo [0x61, 0x30] (.subq rbx rax) = true ∧
    decodedTo [0x62, 0x66] (.andq rsi rsi) = true ∧ decodedTo [0x63, 0x01] (.xorq rax rcx) = true := by decide
theorem test_decode_jumps :
    decodedTo [0x70, 0x20, 0, 0, 0, 0, 0, 0, 0] (.jmp 0x20) = true ∧
    decodedTo [0x71, 0x40, 0, 0, 0, 0, 0, 0, 0] (.jle 0x40) = true ∧
    decodedTo [0x72, 0x40, 0, 0, 0, 0, 0, 0, 0] (.jl 0x40) = true ∧
    decodedTo [0x73, 0x40, 0, 0, 0, 0, 0, 0, 0] (.je 0x40) = true ∧
    decodedTo [0x74, 0x65, 0, 0, 0, 0, 0, 0, 0] (.jne 0x65) = true ∧
    decodedTo [0x75, 0x40, 0, 0, 0, 0, 0, 0, 0] (.jge 0x40) = true ∧
    decodedTo [0x76, 0x40, 0, 0, 0, 0, 0, 0, 0] (.jg 0x40) = true := by decide
theorem test_decode_call_ret :
    decodedTo [0x80, 0x30, 0, 0, 0, 0, 0, 0, 0] (.call 0x30) = true ∧
    decodedTo [0x90] .ret = true ∧ decodedTo [0x9F] .ret = true := by decide
theorem test_decode_stack : decodedTo [0xA0, 0x4F] (.pushq rsp) = true ∧ decodedTo [0xB0, 0x7F] (.popq rdi) = true := by decide
/-- A used register field of 15 decodes (R307). -/
theorem test_decode_register_fifteen :
    decodedTo [0x60, 0x3F] (.addq rbx 15) = true ∧ decodedTo [0xA0, 0xFF] (.pushq 15) = true := by decide
theorem test_decode_rejects :
    rejects [0x27, 0x45] .invalidEncoding = true ∧ rejects [0x2F, 0x00] .invalidEncoding = true ∧
    rejects [0x64, 0x00] .invalidEncoding = true ∧ rejects [0x77, 0x00] .invalidEncoding = true ∧
    rejects [0xC0] .invalidEncoding = true ∧ rejects [0xD0] .invalidEncoding = true ∧
    rejects [0xE0] .invalidEncoding = true ∧ rejects [0xF0] .invalidEncoding = true ∧
    rejects [0x27] .invalidEncoding = true ∧ rejects [0x60] .addressOutOfBounds = true ∧
    rejects [0x30, 0xF0, 0, 0, 0] .addressOutOfBounds = true ∧ rejects [] .addressOutOfBounds = true := by decide

/-- The encoder on the same words, unused fields at what an assembler emits (R304, R307). -/
theorem test_encode :
    encode (.irmovq rsp 0x200) = [0x30, 0xF4, 0x00, 0x02, 0, 0, 0, 0, 0, 0] ∧ encode (.pushq rsp) = [0xA0, 0x4F] ∧
    encode (.cmovg rsp rbp) = [0x26, 0x45] ∧ encode (.jne 0x65) = [0x74, 0x65, 0, 0, 0, 0, 0, 0, 0] := by decide

/-- The opcode table's numbering: byte k is bits 8k+7 to 8k. -/
theorem test_table_word :
    decodeTableWord 16 0x4526 = some (.cmovg rsp rbp) ∧ decodeTableWord 8 0x90 = some .ret ∧
    decodeTableWord 80 0x112233445566778803_40 = some (.rmmovq rax rbx 0x1122334455667788) ∧
    decodeTableWord 8 0xC0 = none := by decide

/-! ## One step of each instruction (95_test_vectors.md sections 1 and 2.4 to 2.6) -/

/-- 95 section 1.1, D11: the pc stays and the cycle counts. -/
theorem test_halt : (run1 (setup 0x00A [0x00] [] [] (false, false, false))).map
    (fun t => (t.status, t.pc, t.cycleCount)) = some (.halted, 0x00A, 1) := by decide

/-- R451's example. -/
theorem test_nop : (run1 (setup 0x10 [0x10] [] [] (false, false, false))).map
    (fun t => (t.status, t.pc, t.cycleCount)) = some (.running, 0x11, 1) := by decide

theorem test_rrmovq : (run1 (setup 0 [0x20, 0x03] [(0, 5), (3, 9)] [] (true, false, false))).map
    (fun t => (t.regs[3], t.pc, t.flags.sign)) = some (5, 2, true) := by decide

/-- R412 row 1 with S = O = 1 and Z = 0: not moved. -/
theorem test_cmovle : (run1 (setup 0 [0x21, 0x12] [(1, 7), (2, 8)] [] (true, false, true))).map
    (·.regs[2]) = some 8 := by decide

/-- R412 row 2 with S = 0 and O = 1: moved. -/
theorem test_cmovl : (run1 (setup 0 [0x22, 0x12] [(1, 7), (2, 8)] [] (false, false, true))).map
    (·.regs[2]) = some 7 := by decide

theorem test_cmove_not : (run1 (setup 0 [0x23, 0x03] [(0, 5), (3, 9)] [] (false, false, false))).map
    (·.regs[3]) = some 9 := by decide

theorem test_cmove : (run1 (setup 0 [0x23, 0x03] [(0, 5), (3, 9)] [] (false, true, false))).map
    (·.regs[3]) = some 5 := by decide

theorem test_cmovne : (run1 (setup 0 [0x24, 0xE0] [(14, 5), (0, 9)] [] (true, false, true))).map
    (·.regs[0]) = some 5 := by decide

theorem test_cmovge : (run1 (setup 0 [0x25, 0x12] [(1, 1)] [] (false, true, false))).map
    (·.regs[2]) = some 0 := by decide

theorem test_cmovg : (run1 (setup 0 [0x26, 0x16] [(1, 1)] [] (false, true, false))).map
    (·.regs[6]) = some 1 := by decide

theorem test_irmovq : (run1 (setup 0 [0x30, 0xF0, 0x0A, 0, 0, 0, 0, 0, 0, 0] [] [] (false, false, false))).map
    (fun t => (t.regs[0], t.pc)) = some (10, 0x0A) := by decide

theorem test_irmovq_fifteen :
    failsWith (setup 0 [0x30, 0xFF, 1, 0, 0, 0, 0, 0, 0, 0] [] [] (false, false, false)) .addressOutOfBounds = true := by decide

/-- The bytes of the stored word, the least significant first. -/
theorem test_rmmovq :
    (run1 (setup 0 [0x40, 0x03, 0x08, 0, 0, 0, 0, 0, 0, 0] [(0, 0x1122334455667788), (3, 0x100)] [] (false, false, false))).map
      (fun t => (List.range 9).map (fun k => t.byte (0x108 + k))) =
    some [0x88, 0x77, 0x66, 0x55, 0x44, 0x33, 0x22, 0x11, 0x00] := by decide

/-- D5's distinguishing vector: the exact sum is -2^64, and the wrapped one would be 0. -/
theorem test_rmmovq_exact_sum :
    failsWith (setup 0 [0x40, 0x03, 0, 0, 0, 0, 0, 0, 0, 0x80] [(3, wmin)] [] (false, false, false))
      .addressOutOfBounds = true := by decide

/-- The base is read before the destination is written. -/
theorem test_mrmovq :
    (run1 (setup 0 [0x50, 0x33, 0x08, 0, 0, 0, 0, 0, 0, 0] [(3, 0x100)] [(0x108, 0x1122334455667788)] (false, false, false))).map
      (fun t => (t.regs[3], t.pc)) = some (0x1122334455667788, 10) := by decide

theorem test_mrmovq_fifteen :
    failsWith (setup 0 [0x50, 0xF0, 0x10, 0, 0, 0, 0, 0, 0, 0] [] [] (false, false, false)) .addressOutOfBounds = true := by decide

/-- MAX + 1 (95 section 1.2). -/
theorem test_addq : (run1 (setup 0 [0x60, 0x30] [(0, wmax), (3, 1)] [] (false, true, false))).map
    (fun t => (t.regs[0], t.regs[3], t.flags)) = some (wmin, 1, { sign := true, zero := false, overflow := true }) := by decide

theorem test_addq_min : (run1 (setup 0 [0x60, 0x30] [(0, wmin), (3, wmin)] [] (false, false, false))).map
    (fun t => (t.regs[0], t.flags)) = some (0, { sign := false, zero := true, overflow := true }) := by decide

/-- The minuend is rB: 3 - 5. -/
theorem test_subq : (run1 (setup 0 [0x61, 0x30] [(0, 3), (3, 5)] [] (false, false, true))).map
    (fun t => (t.regs[0], t.flags)) = some (-2, { sign := true, zero := false, overflow := false }) := by decide

theorem test_subq_min : (run1 (setup 0 [0x61, 0x30] [(0, 0), (3, wmin)] [] (false, false, false))).map
    (fun t => (t.regs[0], t.flags)) = some (wmin, { sign := true, zero := false, overflow := true }) := by decide

theorem test_andq : (run1 (setup 0 [0x62, 0x30] [(0, 0xFF00), (3, 0x0FF0)] [] (true, true, true))).map
    (fun t => (t.regs[0], t.flags)) = some (0x0F00, { sign := false, zero := false, overflow := false }) := by decide

theorem test_xorq : (run1 (setup 0 [0x63, 0x30] [(0, -1), (3, 1)] [] (false, true, true))).map
    (fun t => (t.regs[0], t.flags)) = some (-2, { sign := true, zero := false, overflow := false }) := by decide

theorem test_jmp : (run1 (setup 0 [0x70, 0x00, 0x20, 0, 0, 0, 0, 0, 0] [] [] (false, false, false))).map
    (fun t => (t.pc, t.status, t.cycleCount)) = some (0x2000, .running, 1) := by decide

theorem test_jle : (run1 (setup 0x10 [0x71, 0x40, 0, 0, 0, 0, 0, 0, 0] [] [] (false, false, true))).map
    (·.pc) = some 0x40 := by decide

theorem test_jl : (run1 (setup 0x10 [0x72, 0x40, 0, 0, 0, 0, 0, 0, 0] [] [] (true, false, true))).map
    (·.pc) = some 0x19 := by decide

theorem test_je : (run1 (setup 0x10 [0x73, 0x40, 0, 0, 0, 0, 0, 0, 0] [] [] (false, true, false))).map
    (·.pc) = some 0x40 := by decide

theorem test_jne : (run1 (setup 0x75 [0x74, 0x65, 0, 0, 0, 0, 0, 0, 0] [] [] (false, true, false))).map
    (·.pc) = some 0x7E := by decide

theorem test_jge : (run1 (setup 0x10 [0x75, 0x40, 0, 0, 0, 0, 0, 0, 0] [] [] (false, true, false))).map
    (·.pc) = some 0x19 := by decide

theorem test_jg : (run1 (setup 0x10 [0x76, 0x40, 0, 0, 0, 0, 0, 0, 0] [] [] (false, true, false))).map
    (·.pc) = some 0x40 := by decide

theorem test_call : (run1 (setup 0x20 [0x80, 0x40, 0, 0, 0, 0, 0, 0, 0] [(4, 0x200)] [] (false, false, false))).map
    (fun t => (t.wordAt 0x1F8, t.regs[4], t.pc)) = some (0x29, 0x1F8, 0x40) := by decide

/-- The slot 0x1000 to 0x1007 lies past the end of memory. -/
theorem test_call_out_of_bounds :
    failsWith (setup 0x20 [0x80, 0x40, 0, 0, 0, 0, 0, 0, 0] [(4, 0x1008)] [] (false, false, false))
      .addressOutOfBounds = true := by decide

theorem test_ret : (run1 (setup 0x40 [0x90] [(4, 0x1F8)] [(0x1F8, 0x29)] (false, false, false))).map
    (fun t => (t.regs[4], t.pc)) = some (0x200, 0x29) := by decide

theorem test_ret_out_of_bounds :
    failsWith (setup 0x40 [0x90] [(4, 0xFF9)] [] (false, false, false)) .addressOutOfBounds = true := by decide

theorem test_pushq : (run1 (setup 0 [0xA0, 0x0F] [(0, 7), (4, 0x200)] [] (false, false, false))).map
    (fun t => (t.wordAt 0x1F8, t.regs[4], t.pc)) = some (7, 0x1F8, 2) := by decide

theorem test_pushq_rsp : (run1 (setup 0 [0xA0, 0x4F] [(4, 0x100)] [] (false, false, false))).map
    (fun t => (t.wordAt 0xF8, t.regs[4])) = some (0x100, 0xF8) := by decide

theorem test_popq : (run1 (setup 0 [0xB0, 0x0F] [(4, 0x1F8)] [(0x1F8, 7)] (false, false, false))).map
    (fun t => (t.regs[0], t.regs[4], t.pc)) = some (7, 0x200, 2) := by decide

/-- D10: the loaded word stays in the stack pointer. -/
theorem test_popq_rsp : (run1 (setup 0 [0xB0, 0x4F] [(4, 0xF8)] [(0xF8, 0x555)] (false, false, false))).map
    (·.regs[4]) = some 0x555 := by decide

/-! ## Errors, priority and terminal states (95_test_vectors.md section 2.7) -/

theorem test_truncated_illegal :
    failsWith (setup 0xFFF [0x27] [] [] (false, false, false)) .invalidEncoding = true ∧
    failsWith (setup 0xFFB [0x30, 0xF0] [] [] (false, false, false)) .addressOutOfBounds = true := by decide
theorem test_pc_out_of_bounds :
    failsWith (setup 0x1000 [] [] [] (false, false, false)) .addressOutOfBounds = true ∧
    failsWith (setup (-1) [] [] [] (false, false, false)) .addressOutOfBounds = true := by decide
theorem test_operand_read_error :
    failsWith (setup 0 [0x60, 0x3F] [(3, 1)] [] (true, true, true)) .addressOutOfBounds = true := by decide
/-- SP is not moved by a popq whose destination is no register (R421). -/
theorem test_popq_fifteen :
    failsWith (setup 0 [0xB0, 0xFF] [(4, 0x100)] [] (false, false, false)) .addressOutOfBounds = true := by decide
theorem test_terminal :
    run1 { State.reset with status := .halted } = some { State.reset with status := .halted } ∧
    run1 (State.reset.errorState .invalidEncoding) = some (State.reset.errorState .invalidEncoding) := by decide

/-! ## Reset, load and the block's outside -/

theorem test_fetch_word :
    (run1 (State.reset.withFetchWord 16 0x4526)).map (·.pc) = some 2 ∧
    (run1 (State.reset.withFetchWord 80 0xAF030)).map (·.regs[0]) = some 0xA := by decide
/-- 95_test_vectors.md P5's second line. -/
theorem test_load_line :
    loadLine 0x1000 [] ['0', 'x', '0', '0', 'a', ':', ' ', 'b', '0', 'F', 'f', ' ', '|', ' ', 'p'] =
      ([(0x00A, 0xB0), (0x00B, 0xFF)], .loaded) := by decide
/-- Past the end of memory, and at a bad digit, the rest of the line is dropped (D21). -/
theorem test_load_malformed :
    loadLine 0x0B [] ['0', 'x', 'a', ':', 'b', '0', 'f', 'f'] = ([(0x00A, 0xB0)], .malformedInput) ∧
    loadLine 0x1000 [] ['0', 'x', 'a', ':', 'b', '0', 'g', 'f'] = ([(0x00A, 0xB0)], .malformedInput) ∧
    loadLine 0x1000 [] ['|', ' ', 'x'] = ([], .skipped) := by decide
theorem test_stat :
    State.reset.stat = some 1 ∧ (State.reset.errorState .addressOutOfBounds).stat = some 3 ∧
    (State.reset.errorState .invalidEncoding).stat = some 4 := by decide
/-- R620 on R571's example: six stages; the record holds valA, valE and valM as they come, and the state shown changes
only after pc update. -/
theorem test_stage_trace :
    (stageTrace (setup 0 [0xB0, 0x0F] [(4, 0x1F8)] [(0x1F8, 7)] (false, false, false))).map
      (fun v => (v.stage, v.scratch.map (fun c => (c.valA, c.valE, c.valM)), v.state.regs[4], v.state.pc)) =
    [(.decode, some (0, 0, 0), 0x1F8, 0), (.operandRead, some (0x1F8, 0, 0), 0x1F8, 0),
     (.execute, some (0x1F8, 0x200, 0), 0x1F8, 0), (.memory, some (0x1F8, 0x200, 7), 0x1F8, 0),
     (.writeback, some (0x1F8, 0x200, 7), 0x1F8, 0), (.pcUpdate, some (0x1F8, 0x200, 7), 0x200, 2)] := by decide
/-- The length in the record (R113, R306): 2 for popq, 10 for irmovq; R320's other fields of the irmovq beside it. -/
theorem test_record_length :
    (stageTrace (setup 0 [0xB0, 0x0F] [] [] (false, false, false))).map (fun v => v.scratch.map (·.ins.len)) =
      List.replicate 6 (some 2) ∧
    (stageTrace (setup 0 [0x30, 0xF4, 0x00, 0x02, 0, 0, 0, 0, 0, 0] [] [] (false, false, false))).head?.bind (·.scratch) =
      some { ins := { icode := .irmov, ifun := 0, rA := 15, rB := 4, valC := 0x200, len := 10 }, valP := 10 } := by decide
/-- A popq to no register raises at writeback, and no stage follows (R421, R604). -/
theorem test_stage_trace_raises :
    (stageTrace (setup 0 [0xB0, 0xFF] [(4, 0x100)] [] (false, false, false))).map
      (fun v => (v.stage, v.state.status, v.state.regs[4])) =
    [(.decode, .running, 0x100), (.operandRead, .running, 0x100), (.execute, .running, 0x100),
     (.memory, .running, 0x100), (.writeback, .errored, 0x100)] := by decide
theorem test_memory_form :
    Memory.set [(3, 1)] 5 2 = [(3, 1), (5, 2)] ∧ Memory.set [(3, 1), (5, 2)] 3 0 = [(5, 2)] ∧
    Memory.set [(5, 2)] 3 1 = [(3, 1), (5, 2)] ∧ Memory.set [(3, 1)] 3 4 = [(3, 4)] := by decide

/-! ## Witnesses: concrete states and operands that meet the hypotheses of the statements, at boundary values -/

/-- A machine of 32 bytes, with bytes at `pc` and a value in the stack pointer. -/
def small (pc : Word) (bs : List Byte) (sp : Word) : State :=
  { State.resetOf 32 with
    pc := pc
    mem := Memory.setBytes [] pc.toNat bs
    regs := (State.resetOf 32).regs.set SP.val sp SP_named }

/-- A cycle that completes has this opcode class. -/
def completesAs (s : State) (c : IClass) : Bool :=
  match runStages s with
  | .ok r => decide (r.ins.icode = c)
  | .error _ => false

/-- A cycle that raises, raises this. -/
def raises (s : State) (e : CoreError) : Bool :=
  match runStages s with
  | .ok _ => false
  | .error e' => decide (e' = e)

theorem completes_ok {s : State} {c : IClass} (h : completesAs s c = true) : ∃ r, runStages s = .ok r ∧ r.ins.icode = c := by
  unfold completesAs at h
  split at h
  · exact ⟨_, ‹_›, of_decide_eq_true h⟩
  · cases h

theorem raises_error {s : State} {e : CoreError} (h : raises s e = true) : runStages s = .error e := by
  unfold raises at h
  split at h
  · cases h
  · rw [‹runStages s = _›, of_decide_eq_true h]

theorem small_inv (pc : Word) (bs : List Byte) (sp : Word)
    (h : (Memory.setBytes [] pc.toNat bs).wf = true ∧ Memory.below 32 (Memory.setBytes [] pc.toNat bs) = true) :
    (small pc bs sp).Inv :=
  ⟨h.1, h.2, (by decide : Config.minMemSize ≤ 32), (by decide : 32 ≤ Config.maxMemSize), by constructor <;> intro h <;> cases h⟩

theorem witness_FunctionNibbleIgnoredWhereNotTaken :
    (0xB : Nibble) ∈ ([0x0, 0x1, 0x3, 0x4, 0x5, 0x8, 0x9, 0xA, 0xB] : List Nibble) := by decide

/-- One decoding of each of the four lengths, the first and the last class of each group. -/
theorem witness_LengthIsAFunctionOfTheOpcodeNibble :
    decode (0x00 :: []) = .ok .halt ∧ decode (0x90 :: []) = .ok .ret ∧
    decode (0x20 :: [0x03]) = .ok (.rrmovq rax rbx) ∧ decode (0xB0 :: [0x7F]) = .ok (.popq rdi) ∧
    decode (0x70 :: [0x20, 0, 0, 0, 0, 0, 0, 0]) = .ok (.jmp 0x20) ∧
    decode (0x80 :: [0x30, 0, 0, 0, 0, 0, 0, 0]) = .ok (.call 0x30) ∧
    decode (0x30 :: [0xF4, 0, 2, 0, 0, 0, 0, 0, 0]) = .ok (.irmovq rsp 0x200) ∧
    decode (0x50 :: [0x13, 8, 0, 0, 0, 0, 0, 0, 0]) = .ok (.mrmovq rcx rbx 8) := by
  refine ⟨?_, ?_, ?_, ?_, ?_, ?_, ?_, ?_⟩ <;> rfl

/-- A pushq with ignored nibbles 3 and 5, at the last two bytes of memory. -/
theorem witness_StepRunsTheInstructionAtThePc :
    (small 30 [0xA3, 0x45] 16).runsBytes (encodeWith 0x3 0x5 (.pushq rsp)) ∧
    ((small 30 [0xA3, 0x45] 16).status = .running ∧ decodeAt (small 30 [0xA3, 0x45] 16) = .ok (.pushq rsp)) := by
  refine ⟨⟨rfl, by decide, by decide, by decide⟩, rfl, rfl⟩

/-- A pc at MEM_SIZE and at -1, and the bytes 0xC0, 0x27 and 0x64 at the last byte of memory. -/
theorem witness_FailingDecodeEndsTheRun :
    ((small 32 [] 0).status = .running ∧ ¬ (small 32 [] 0).pcValid) ∧
    ((small (-1) [] 0).status = .running ∧ ¬ (small (-1) [] 0).pcValid) ∧
    ((small 31 [0xC0] 0).status = .running ∧ (small 31 [0xC0] 0).pcValid ∧
      0xC ≤ (hiNibble ((small 31 [0xC0] 0).byte 31)).val) ∧
    ((small 31 [0x27] 0).pcValid ∧ (hiNibble ((small 31 [0x27] 0).byte 31)).val = 0x2 ∧
      0x7 ≤ (loNibble ((small 31 [0x27] 0).byte 31)).val) ∧
    ((small 31 [0x64] 0).pcValid ∧ (hiNibble ((small 31 [0x64] 0).byte 31)).val = 0x6 ∧
      0x4 ≤ (loNibble ((small 31 [0x64] 0).byte 31)).val) := by
  unfold State.pcValid
  decide

theorem witness_TerminalStatesDoNotChange :
    { State.reset with status := .halted }.status ≠ .running ∧
    (State.reset.errorState .addressOutOfBounds).status ≠ .running := by decide

/-- The premise and each of the five clauses. -/
theorem witness_StatusFollowsTheFsm :
    (((small 0 [0x10] 0).err.isSome = true ↔ (small 0 [0x10] 0).status = .errored) ∧
      (small 0 [0x10] 0).status = .running ∧ ∃ c, runStages (small 0 [0x10] 0) = .ok c ∧ c.ins.icode ≠ .halt) ∧
    ((small 0 [] 0).status = .running ∧ ∃ c, runStages (small 0 [] 0) = .ok c ∧ c.ins.icode = .halt) ∧
    ((small 0 [0xA0, 0x0F] 7).status = .running ∧ runStages (small 0 [0xA0, 0x0F] 7) = .error .addressOutOfBounds) ∧
    (({ State.reset with status := .halted }.err.isSome = true ↔
        { State.reset with status := .halted }.status = .errored) ∧
      { State.reset with status := .halted }.status = .halted) ∧
    (((State.reset.errorState .invalidEncoding).err.isSome = true ↔
        (State.reset.errorState .invalidEncoding).status = .errored) ∧
      (State.reset.errorState .invalidEncoding).status = .errored) := by
  refine ⟨⟨by decide, rfl, ?_⟩, ⟨rfl, completes_ok (by decide)⟩, ⟨rfl, raises_error (by decide)⟩, by decide, by decide⟩
  obtain ⟨c, h, hc⟩ := completes_ok (s := small 0 [0x10] 0) (c := .nop) (by decide)
  exact ⟨c, h, by rw [hc]; decide⟩

theorem witness_AnErrorIsPrecise :
    (small 0 [0xC0] 0).status = .running ∧ runStages (small 0 [0xC0] 0) = .error .invalidEncoding ∧
    step (small 0 [0xC0] 0) = .next ((small 0 [0xC0] 0).errorState .invalidEncoding) ∧
    ((small 0 [0xC0] 0).errorState .invalidEncoding).status = .errored :=
  ⟨rfl, raises_error (by decide), rfl, rfl⟩

theorem witness_CycleCountCountsCompletedCycles :
    ((small 0 [0x10] 0).status = .running ∧ ∃ c, runStages (small 0 [0x10] 0) = .ok c) ∧
    ((small 0 [0xC0] 0).status = .running ∧ ∃ e, runStages (small 0 [0xC0] 0) = .error e) := by
  refine ⟨⟨rfl, ?_⟩, rfl, _, raises_error (e := .invalidEncoding) (by decide)⟩
  obtain ⟨c, h, -⟩ := completes_ok (s := small 0 [0x10] 0) (c := .nop) (by decide)
  exact ⟨c, h⟩

theorem witness_CycleCountIsUnobservable :
    step (small 0 [0x10] 0) = .next { small 0 [0x10] 0 with pc := 1, cycleCount := 1 } := rfl

/-- A step of a state that has the invariant: a push that fills the last slot of memory. -/
theorem witness_EveryStepKeepsTheInvariant :
    (small 0 [0xA0, 0x4F] 32).Inv ∧ ∃ t, step (small 0 [0xA0, 0x4F] 32) = .next t ∧ t.sp = 24 :=
  ⟨small_inv _ _ _ (by decide), _, rfl, by decide⟩

theorem witness_EveryClockEdgeKeepsTheInvariant :
    (small 0 [0xC0] 0).Inv ∧ clockEdge { rst := true, run := false, image := [] } (small 0 [0xC0] 0) = .next (State.resetOf 32) :=
  ⟨small_inv _ _ _ (by decide), rfl⟩

theorem witness_ResetHasTheInvariant :
    (Config.minMemSize ≤ 1 ∧ 1 ≤ Config.maxMemSize) ∧
    (Config.minMemSize ≤ Config.maxMemSize ∧ Config.maxMemSize ≤ Config.maxMemSize) := by decide

theorem witness_ConditionsFollowTheTable :
    (7 ≤ (7 : Nibble).val) ∧
    (∃ c, runStages (small 0 [0x20, 0x03] 0) = .ok c ∧ c.ins.icode = .cmov) ∧
    (∃ c, runStages (small 0 [0x76, 0, 0, 0, 0, 0, 0, 0, 0] 0) = .ok c ∧ c.ins.icode = .jump) :=
  ⟨by decide, completes_ok (by decide), completes_ok (by decide)⟩

theorem witness_OnlyAluOperationsWriteTheFlags :
    (rax.val < numRegs ∧ r14.val < numRegs) ∧ (Instr.popq r14).iclass ≠ .op := by decide

/-- A pc that is not valid, and a nop at the last byte of memory. -/
theorem witness_NopOnlyAdvances :
    ((small 32 [] 0).status = .running ∧ ¬ (small 32 [] 0).pcValid) ∧
    ((small 31 [0x17] 0).Inv ∧ (small 31 [0x17] 0).runsBytes [pair 0x1 0x7] ∧
      (small 31 [0x17] 0).pc.toInt + 1 = (small 31 [0x17] 0).memSize) := by
  refine ⟨by unfold State.pcValid; decide, small_inv _ _ _ (by decide), ⟨rfl, by decide, by decide, by decide⟩, by decide⟩

theorem witness_ConditionalMovesSelect :
    (rax.val < numRegs ∧ r14.val < numRegs) ∧ ((15 : RegIdx) = 15 ∨ rax = 15) ∧ (rax = 15 ∨ (15 : RegIdx) = 15) ∧
    7 ≤ (7 : Nibble).val ∧ (6 : Nibble).val < 7 ∧
    ((small 32 [] 0).status = .running ∧ ¬ (small 32 [] 0).pcValid) := by
  unfold State.pcValid
  decide

theorem witness_IrmovqLoadsItsImmediate : r14.val < numRegs ∧ 9 < 10 := by decide

/-- The last legal word, the first past it, and one below 0 (x[0] = 0, so the address is D). -/
theorem witness_RmmovqStoresAWord_and_MrmovqLoadsAWord :
    (rax.val < numRegs ∧ r14.val < numRegs) ∧
    (small 0 [] 0).wordLegal ((small 0 [] 0).regs[0].toInt + (24 : Word).toInt) ∧
    ¬ (small 0 [] 0).wordLegal ((small 0 [] 0).regs[0].toInt + (25 : Word).toInt) ∧
    ¬ (small 0 [] 0).wordLegal ((small 0 [] 0).regs[0].toInt + (-8 : Word).toInt) ∧
    ((15 : RegIdx) = 15 ∨ rax = 15) := by
  unfold State.wordLegal
  decide

theorem witness_AluOperationsCompute :
    (rax.val < numRegs ∧ r14.val < numRegs) ∧ ((15 : RegIdx) = 15 ∨ rax = 15) ∧ 4 ≤ (4 : Nibble).val ∧
    (3 : Nibble).val < 4 ∧ ((small (-1) [] 0).status = .running ∧ ¬ (small (-1) [] 0).pcValid) := by
  unfold State.pcValid
  decide

theorem witness_JumpsSetThePc : 7 ≤ (7 : Nibble).val ∧ (6 : Nibble).val < 7 ∧ 8 < 9 := by decide

theorem witness_JumpToItselfRunsForever :
    (small 23 [0x70, 23, 0, 0, 0, 0, 0, 0, 0] 0).runsBytes (encode (.jmp (small 23 [0x70, 23, 0, 0, 0, 0, 0, 0, 0] 0).pc)) :=
  ⟨rfl, by decide, by decide, by decide⟩

/-- Stack pointers 8 and MEM_SIZE, the least and greatest that call and pushq take, and 7 and MEM_SIZE + 1. -/
theorem witness_CallPushesTheReturnAddress_and_PushqStoresARegister :
    (8 ≤ (small 0 [] 8).sp.toInt ∧ (small 0 [] 8).sp.toInt ≤ (small 0 [] 8).memSize) ∧
    (8 ≤ (small 0 [] 32).sp.toInt ∧ (small 0 [] 32).sp.toInt ≤ (small 0 [] 32).memSize) ∧
    (small 0 [] 7).sp.toInt < 8 ∧ ((small 0 [] 33).memSize : Int) < (small 0 [] 33).sp.toInt ∧ r14.val < numRegs := by
  decide

/-- Stack pointers 0 and MEM_SIZE - 8, the least and greatest that ret and popq take, and -1 and MEM_SIZE - 7. -/
theorem witness_RetPopsTheReturnAddress_and_PopqLoadsARegister :
    (small 0 [] 0).wordLegal (small 0 [] 0).sp.toInt ∧ (small 0 [] 24).wordLegal (small 0 [] 24).sp.toInt ∧
    ¬ (small 0 [] (-1)).wordLegal (small 0 [] (-1)).sp.toInt ∧ ¬ (small 0 [] 25).wordLegal (small 0 [] 25).sp.toInt ∧
    (small 0 [] 24).Inv ∧ r14.val < numRegs ∧ r14 ≠ SP := by
  refine ⟨by unfold State.wordLegal; decide, by unfold State.wordLegal; decide, by unfold State.wordLegal; decide,
    by unfold State.wordLegal; decide, small_inv _ _ _ (by decide), by decide, by decide⟩

theorem witness_RegisterFifteenAlwaysFails :
    (Instr.mrmovq 15 rax 0).wf = false ∧ (Instr.cmovge r14 rax).wf = true ∧
    (Instr.cmovge r14 rax).iclass ∈ [IClass.halt, IClass.nop, IClass.cmov, IClass.irmov, IClass.op, IClass.jump] := by
  decide

/-- A push of the stack pointer itself, into the last slot of memory. -/
theorem witness_PushThenPopRestoresTheRegisters :
    (small 0 [0xA0, 0x4F] 32).Inv ∧ (small 0 [0xA0, 0x4F] 32).status = .running ∧
    ∃ t, exec (.pushq SP) (small 0 [0xA0, 0x4F] 32) = .next t ∧ t.status = .running :=
  ⟨small_inv _ _ _ (by decide), rfl, _, rfl, rfl⟩

theorem witness_CallThenRetReturns :
    (small 0 [] 8).Inv ∧ (small 0 [] 8).status = .running ∧
    ∃ t, exec (.call 0x10) (small 0 [] 8) = .next t ∧ t.status = .running :=
  ⟨small_inv _ _ _ (by decide), rfl, _, rfl, rfl⟩

theorem witness_StoreThenLoadGivesTheWord :
    ¬ (small 0 [] 0).wordLegal (-1) ∧ ¬ (small 0 [] 0).wordLegal 25 ∧
    (small 0 [0x10] 0).mem.wf = true ∧ (small 0 [0x10] 0).wordLegal 0 ∧ (small 0 [0x10] 0).wordLegal 24 := by
  unfold State.wordLegal
  decide

/-- One completing cycle and one that raises. -/
theorem witness_InstructionsWithoutAStoreLeaveMemory :
    (Instr.popq rax).iclass ∈ [IClass.halt, IClass.nop, IClass.cmov, IClass.irmov, IClass.mrmov, IClass.op, IClass.jump,
      IClass.ret, IClass.pop] ∧
    (∃ t, exec (.popq rax) (small 0 [] 24) = .next t ∧ t.status = .running) ∧
    (∃ t, exec (.popq rax) (small 0 [] 25) = .next t ∧ t.status = .errored) :=
  ⟨by decide, ⟨_, rfl, rfl⟩, ⟨_, rfl, rfl⟩⟩

theorem witness_RmmovqChangesOnlyTheStoredBytes :
    ∃ t, exec (.rmmovq rsp rax 24) (small 0 [0x10] 0x1234) = .next t ∧ t.status = .running ∧
      rsp.val < numRegs ∧ rax.val < numRegs ∧ (24 : Int) = dispAddr (small 0 [0x10] 0x1234).regs[0] 24 ∧
      (small 0 [0x10] 0x1234).mem.wf = true ∧ 24 ≤ (31 : Nat) ∧ 7 < 8 := by
  refine ⟨_, rfl, rfl, ?_⟩
  decide

theorem witness_CallAndPushqChangeOnlyTheStackSlot :
    (∃ t, exec (.call 0x10) (small 0 [0x10] 32) = .next t ∧ t.status = .running) ∧
    (∃ t, exec (.pushq rax) (small 0 [0x10] 8) = .next t ∧ t.status = .running) ∧
    (24 : Int) = pushAddr (small 0 [0x10] 32).sp ∧ (0 : Int) = pushAddr (small 0 [0x10] 8).sp ∧
    (small 0 [0x10] 32).mem.wf = true ∧ rax.val < numRegs :=
  ⟨⟨_, rfl, rfl⟩, ⟨_, rfl, rfl⟩, by decide, by decide, by decide, by decide⟩

theorem witness_StatusOutputCodes : (small 0 [] 0).Inv := small_inv _ _ _ (by decide)

theorem witness_HoldingTheClockChangesNothing :
    ∀ i ∈ [Inputs.mk false true [], Inputs.mk false false [], Inputs.mk false true []], i.rst = false := by decide

/-- A cycle that completes, one that raises in the decoder, one that raises at writeback, and a terminal machine. -/
theorem witness_PerStageViewLeadsToTheStep :
    ((small 0 [0x10] 0).status = .running ∧ ∃ c, runStages (small 0 [0x10] 0) = .ok c ∧ c.ins.icode = .nop) ∧
    ((small 0 [0xC0] 0).status = .running ∧ runStages (small 0 [0xC0] 0) = .error .invalidEncoding) ∧
    ((small 0 [0xB0, 0xFF] 8).status = .running ∧ runStages (small 0 [0xB0, 0xFF] 8) = .error .addressOutOfBounds) ∧
    { State.reset with status := .halted }.status ≠ .running :=
  ⟨⟨rfl, completes_ok (by decide)⟩, ⟨rfl, raises_error (by decide)⟩, ⟨rfl, raises_error (by decide)⟩, by decide⟩

/-- The last view of a nop of length 1 and that of a jump of length 9, and the view of a popq's writeback that raises. -/
theorem witness_ShownRecordsHoldTheDecodedInstruction :
    (∃ u ∈ stageTrace (small 0 [0x10] 0), ∃ c, u.stage = .pcUpdate ∧ u.scratch = some c ∧ c.ins.len = 1) ∧
    (∃ u ∈ stageTrace (small 0 [0x70, 0, 0, 0, 0, 0, 0, 0, 0] 0), ∃ c,
      u.stage = .pcUpdate ∧ u.scratch = some c ∧ c.ins.len = 9) ∧
    (∃ u ∈ stageTrace (small 0 [0xB0, 0xFF] 8), ∃ c,
      u.stage = .writeback ∧ u.state.status = .errored ∧ u.scratch = some c ∧ c.ins.len = 2) := by
  refine ⟨⟨_, List.getLast_mem (by decide), _, rfl, rfl, rfl⟩, ⟨_, List.getLast_mem (by decide), _, rfl, rfl, rfl⟩,
    ⟨_, List.getLast_mem (by decide), _, rfl, rfl, rfl, rfl⟩⟩

/-- An illegal byte, an addq from no register, an rrmovq that goes on, a pushq below address 0 (its stack pointer is 7), and
a popq to no register. -/
theorem witness_TheRaisingStageIsShownLast :
    ((small 0 [0xC0] 0).status = .running ∧ decodeStage (small 0 [0xC0] 0) = .error .invalidEncoding) ∧
    ((small 0 [0x60, 0xF0] 0).status = .running ∧ ∃ c1, decodeStage (small 0 [0x60, 0xF0] 0) = .ok c1 ∧
      operandReadStage (small 0 [0x60, 0xF0] 0) c1 = .error .addressOutOfBounds) ∧
    ((small 0 [0x20, 0x03] 0).status = .running ∧ ∃ c1 c2, decodeStage (small 0 [0x20, 0x03] 0) = .ok c1 ∧
      operandReadStage (small 0 [0x20, 0x03] 0) c1 = .ok c2) ∧
    ((small 0 [0xA0, 0x0F] 7).status = .running ∧ ∃ c1 c2 c3, decodeStage (small 0 [0xA0, 0x0F] 7) = .ok c1 ∧
      operandReadStage (small 0 [0xA0, 0x0F] 7) c1 = .ok c2 ∧ executeStage (small 0 [0xA0, 0x0F] 7) c2 = .ok c3 ∧
      memoryStage (small 0 [0xA0, 0x0F] 7) c3 = .error .addressOutOfBounds) ∧
    ((small 0 [0xB0, 0xFF] 8).status = .running ∧ ∃ c1 c2 c3 c4, decodeStage (small 0 [0xB0, 0xFF] 8) = .ok c1 ∧
      operandReadStage (small 0 [0xB0, 0xFF] 8) c1 = .ok c2 ∧ executeStage (small 0 [0xB0, 0xFF] 8) c2 = .ok c3 ∧
      memoryStage (small 0 [0xB0, 0xFF] 8) c3 = .ok c4 ∧
      writebackStage (small 0 [0xB0, 0xFF] 8) c4 = .error .addressOutOfBounds) :=
  ⟨⟨rfl, rfl⟩, ⟨rfl, _, rfl, rfl⟩, ⟨rfl, _, _, rfl, rfl⟩, ⟨rfl, _, _, _, rfl, rfl, rfl, rfl⟩,
    ⟨rfl, _, _, _, _, rfl, rfl, rfl, rfl, rfl⟩⟩

end Sys2Proof.Tests
end

section
/-! The encoding family's proofs: what the decoder reads of its bytes, then R304 and R306. -/

namespace Sys2Proof

/-! ## The bytes an instruction reads -/

/-- The default of `getD` is never reached below the cut, so cutting the list there changes nothing. -/
theorem getD_take_of_lt (bs : List Byte) {n k : Nat} (h : n < k) : (bs.take k).getD n 0 = bs.getD n 0 := by
  simp [List.getD_eq_getElem?_getD, List.getElem?_take_of_lt h]

theorem immediateAt_take (bs : List Byte) {n k : Nat} (h : n + 8 ≤ k) :
    immediateAt (bs.take k) n = immediateAt bs n := by
  simp (disch := omega) only [immediateAt, getD_take_of_lt]

theorem immediateOf_take (c : IClass) (bs : List Byte) {k : Nat} (h : c.length ≤ k) :
    immediateOf c (bs.take k) = immediateOf c bs := by
  cases c with
  | irmov | rmmov | mrmov => exact immediateAt_take bs h
  | jump | call => exact immediateAt_take bs h
  | halt | nop | cmov | op | ret | push | pop => rfl

theorem IClass.length_pos (c : IClass) : 0 < c.length := by
  cases c <;> decide

theorem IClass.two_le_length {c : IClass} (h : c.hasRegByte = true) : 2 ≤ c.length := by
  revert h; cases c <;> decide

/-- The fields depend on no byte past the class's length (R306). -/
theorem fieldsOf_take (c : IClass) (f : Nibble) (bs : List Byte) {k : Nat} (h : c.length ≤ k) :
    fieldsOf c f (bs.take k) = fieldsOf c f bs := by
  have himm := immediateOf_take c bs h
  by_cases hr : c.hasRegByte = true
  · have hreg := getD_take_of_lt bs (lt_of_lt_of_le (IClass.two_le_length hr) h)
    simp only [fieldsOf, himm, hreg]
  · simp only [fieldsOf, himm, if_neg hr]

/-- The fields depend on the first byte through the class and the function nibble only. -/
theorem fieldsOf_cons (c : IClass) (f : Nibble) (b b' : Byte) (rest : List Byte) :
    fieldsOf c f (b :: rest) = fieldsOf c f (b' :: rest) := by
  cases c <;> rfl

/-- What a decoding that answers an instruction says of its bytes: the first byte, and how many there are. -/
theorem decode_cons_ok {b0 : Byte} {rest : List Byte} {i : Instr} (h : decode (b0 :: rest) = .ok i) :
    ∃ f, b0 = pair i.iclass.code f ∧ i.iclass.takesFun f = true ∧ i.length ≤ rest.length + 1 ∧
      (fieldsOf i.iclass f (b0 :: rest)).toInstr = .ok i := by
  rcases firstByte_cases b0 with hnone | ⟨c, f, rfl⟩
  · rw [decode_none b0 rest hnone] at h; cases h
  · rw [decode_pair] at h
    split_ifs at h with hf hlen
    obtain ⟨j, hj, rfl⟩ := fieldsOf_toInstr_ok c f (pair c.code f :: rest) hf
    obtain rfl : j = i := Except.ok.inj (hj.symm.trans h)
    exact ⟨f, rfl, hf, not_lt.1 hlen, h⟩

/-- Cutting the bytes anywhere from the instruction's end on leaves the instruction (R306). -/
theorem decode_take_of_length_le {b0 : Byte} {rest : List Byte} {i : Instr} {k : Nat}
    (h : decode (b0 :: rest) = .ok i) (hk : i.length ≤ k) : decode ((b0 :: rest).take k) = .ok i := by
  obtain ⟨f, rfl, hf, hlen, hi⟩ := decode_cons_ok h
  cases k with
  | zero => exact absurd hk (not_le.2 i.iclass.length_pos)
  | succ k =>
    have henough : ¬ (rest.take k).length + 1 < i.iclass.length := by
      have hclass : i.iclass.length = i.length := rfl
      rw [List.length_take]; omega
    rw [List.take_succ_cons, decode_pair, if_pos hf, if_neg henough, ← List.take_succ_cons, fieldsOf_take _ _ _ hk, hi]

/-- Cutting the bytes inside the instruction takes away a byte that the decoder needs (R320). -/
theorem decode_take_of_lt_length {b0 : Byte} {rest : List Byte} {i : Instr} {k : Nat}
    (h : decode (b0 :: rest) = .ok i) (hk : k < i.length) :
    decode ((b0 :: rest).take k) = .error .addressOutOfBounds := by
  obtain ⟨f, rfl, hf, -, -⟩ := decode_cons_ok h
  cases k with
  | zero => rfl
  | succ k =>
    have hmissing : (rest.take k).length + 1 < i.iclass.length :=
      lt_of_le_of_lt (Nat.succ_le_succ (List.length_take_le k rest)) hk
    rw [List.take_succ_cons, decode_pair, if_pos hf, if_pos hmissing]

/-- R306's four groups of opcode nibbles, class by class. -/
theorem IClass.length_of_code (c : IClass) :
    (c.code ∈ ([0x0, 0x1, 0x9] : List Nibble) → c.length = 1) ∧
    (c.code ∈ ([0x2, 0x6, 0xA, 0xB] : List Nibble) → c.length = 2) ∧
    (c.code ∈ ([0x7, 0x8] : List Nibble) → c.length = 9) ∧
    (c.code ∈ ([0x3, 0x4, 0x5] : List Nibble) → c.length = 10) := by
  cases c <;> decide

/-- Settles O5: the class of the decoded instruction is the one its opcode nibble names, and the length is its class's. -/
theorem lengthIsAFunctionOfTheOpcodeNibble : Obligations.LengthIsAFunctionOfTheOpcodeNibble := by
  intro b0 rest i h
  obtain ⟨f, hb0, -⟩ := decode_cons_ok h
  have hcode : hiNibble b0 = i.iclass.code := by rw [hb0, hiNibble_pair]
  obtain ⟨one, two, nine, ten⟩ := IClass.length_of_code i.iclass
  rw [hcode]
  exact ⟨one, two, nine, ten, fun _ => decode_take_of_length_le h, fun _ => decode_take_of_lt_length h⟩

/-! ## The ignored function nibble -/

/-- The nine classes that take no function code (R304). -/
def IClass.ignoresFun : IClass → Bool
  | .cmov | .op | .jump => false
  | .halt | .nop | .irmov | .rmmov | .mrmov | .call | .ret | .push | .pop => true

/-- Such a class accepts every function nibble. -/
theorem IClass.takesFun_of_ignoresFun {c : IClass} (h : c.ignoresFun = true) (f : Nibble) : c.takesFun f = true := by
  cases c with
  | cmov | op | jump => cases h
  | halt | nop | irmov | rmmov | mrmov | call | ret | push | pop => rfl

/-- The instruction of such a class does not depend on the function nibble among its fields. -/
theorem toInstr_fieldsOf_of_ignoresFun {c : IClass} (h : c.ignoresFun = true) (f f' : Nibble) (bs : List Byte) :
    (fieldsOf c f bs).toInstr = (fieldsOf c f' bs).toInstr := by
  cases c with
  | cmov | op | jump => cases h
  | halt | nop | irmov | rmmov | mrmov | call | ret | push | pop => rfl

theorem decode_pair_of_ignoresFun {c : IClass} (h : c.ignoresFun = true) (f f' : Nibble) (rest : List Byte) :
    decode (pair c.code f :: rest) = decode (pair c.code f' :: rest) := by
  rw [decode_pair, decode_pair, if_pos (IClass.takesFun_of_ignoresFun h f), if_pos (IClass.takesFun_of_ignoresFun h f'),
    toInstr_fieldsOf_of_ignoresFun h f f', fieldsOf_cons]

/-- R304's list of opcode nibbles names the classes that ignore the function nibble. -/
theorem ignoresFun_of_mem_codes {icode : Nibble}
    (h : icode ∈ ([0x0, 0x1, 0x3, 0x4, 0x5, 0x8, 0x9, 0xA, 0xB] : List Nibble)) :
    ∃ c : IClass, icode = c.code ∧ c.ignoresFun = true := by
  have named : (IClass.ofCode icode).any IClass.ignoresFun = true := by revert icode; decide
  obtain ⟨c, hc, hignores⟩ := Option.any_eq_true _ _ |>.1 named
  exact ⟨c, (IClass.ofCode_eq_some _ _).1 hc, hignores⟩

theorem decode_pair_halt (f : Nibble) (rest : List Byte) : decode (pair IClass.halt.code f :: rest) = .ok .halt := by
  simp [decode_pair, IClass.takesFun, IClass.length, fieldsOf, Fields.toInstr]

theorem decode_pair_ret (f : Nibble) (rest : List Byte) : decode (pair IClass.ret.code f :: rest) = .ok .ret := by
  simp [decode_pair, IClass.takesFun, IClass.length, fieldsOf, Fields.toInstr]

/-- Settles O3: the decoder's two checks and the fields it hands on are the same for both function nibbles. -/
theorem functionNibbleIgnoredWhereNotTaken : Obligations.FunctionNibbleIgnoredWhereNotTaken := by
  refine ⟨?_, decode_pair_halt 0x5, decode_pair_ret 0xF⟩
  intro icode hmem f f' rest
  obtain ⟨c, rfl, hc⟩ := ignoresFun_of_mem_codes hmem
  exact decode_pair_of_ignoresFun hc f f' rest

end Sys2Proof
end

section
/-! The cycle family's proofs: the stage tables give the same cycle as the instruction rules, then R410, R411, R431 and
R432. -/

namespace Sys2Proof.Machine

/-! ## The ALU (R410) -/

theorem fitsWord_iff (x : Int) : fitsWord x = true ↔ -2 ^ 63 ≤ x ∧ x ≤ 2 ^ 63 - 1 := by
  simp [fitsWord]

/-- The sum overflows exactly when the exact sum does not fit. -/
theorem aluFlags_add_overflow_iff (b a : Word) :
    (aluFlags .add b a).overflow = true ↔ ¬ (-2 ^ 63 ≤ b.toInt + a.toInt ∧ b.toInt + a.toInt ≤ 2 ^ 63 - 1) := by
  rw [← fitsWord_iff, Bool.not_eq_true]
  exact iff_of_eq (Bool.not_eq_true' _)

/-- The difference overflows exactly when the exact difference does not fit. -/
theorem aluFlags_sub_overflow_iff (b a : Word) :
    (aluFlags .sub b a).overflow = true ↔ ¬ (-2 ^ 63 ≤ b.toInt - a.toInt ∧ b.toInt - a.toInt ≤ 2 ^ 63 - 1) := by
  rw [← fitsWord_iff, Bool.not_eq_true]
  exact iff_of_eq (Bool.not_eq_true' _)

theorem aluFlags_zero_iff (f : AluFun) (b a : Word) : (aluFlags f b a).zero = true ↔ aluResult f b a = 0 :=
  decide_eq_true_iff

/-- Settles O21: the results and the sign are the ALU's own equations, and overflow is `fitsWord` of the exact result. -/
theorem aluResultAndFlags : Obligations.AluResultAndFlags :=
  ⟨fun _ _ => ⟨rfl, rfl, rfl, rfl⟩, aluFlags_add_overflow_iff, aluFlags_sub_overflow_iff, fun _ _ => ⟨rfl, rfl⟩,
    fun f b a => ⟨rfl, aluFlags_zero_iff f b a⟩⟩

/-! ## Terminal states (R432) -/

theorem step_of_not_running {s : State} (h : s.status ≠ .running) : step s = .next s := by
  cases hs : s.status with
  | running => exact absurd hs h
  | halted => exact step_halted hs
  | errored => exact step_errored hs

/-- Settles O10, by induction on the number of steps. -/
theorem terminalStatesDoNotChange : Obligations.TerminalStatesDoNotChange := by
  intro s n h
  induction n with
  | zero => exact run_zero s
  | succ n ih => rw [run_succ_of_step n (step_of_not_running h), ih]

/-! ## What an instruction of each class runs -/

theorem exec_cmov (c : Cond) (rA rB : RegIdx) (s : State) : exec (.cmov c rA rB) s = moveIf c rA rB s := by
  cases c <;> rfl

theorem exec_op (f : AluFun) (rA rB : RegIdx) (s : State) : exec (.op f rA rB) s = aluOp f rA rB s := by
  cases f <;> rfl

theorem exec_jump (c : Cond) (dest : Word) (s : State) : exec (.jump c dest) s = jumpIf c dest s := by
  cases c <;> rfl

/-! ## The flag write (R411) -/

/-- An operation on two named registers completes. -/
theorem aluOp_named (f : AluFun) (rA rB : RegIdx) (s : State) (hA : rA.val < numRegs) (hB : rB.val < numRegs) :
    aluOp f rA rB s = .next ({ s with
      regs := s.regs.set rB.val (aluResult f s.regs[rB.val] s.regs[rA.val])
      flags := aluFlags f s.regs[rB.val] s.regs[rA.val] }.retire (valP s 2)) := by
  simp only [aluOp, readReg_named, writeReg_named, hA, hB, orRaise_ok]

theorem moveIf_keeps_flags (c : Cond) (rA rB : RegIdx) (s : State) :
    ∃ t, moveIf c rA rB s = .next t ∧ t.flags = s.flags := by
  obtain h | ⟨_, _, h⟩ := moveIf_cases c rA rB s
  · exact ⟨_, h, rfl⟩
  · exact ⟨_, h, rfl⟩

theorem jumpIf_keeps_flags (c : Cond) (dest : Word) (s : State) :
    ∃ t, jumpIf c dest s = .next t ∧ t.flags = s.flags := ⟨_, jumpIf_eq c dest s, rfl⟩

/-- An instruction of any class but `op` answers a next state with the flags it started from. -/
theorem exec_keeps_flags (i : Instr) (s : State) (hi : i.iclass ≠ .op) :
    ∃ t, exec i s = .next t ∧ t.flags = s.flags := by
  cases i with
  | addq | subq | andq | xorq => exact absurd rfl hi
  | halt | nop => exact ⟨_, rfl, rfl⟩
  | rrmovq rA rB | cmovle rA rB | cmovl rA rB | cmove rA rB | cmovne rA rB | cmovge rA rB | cmovg rA rB =>
    exact moveIf_keeps_flags _ rA rB s
  | jmp dest | jle dest | jl dest | je dest | jne dest | jge dest | jg dest => exact jumpIf_keeps_flags _ dest s
  | irmovq rB v => obtain h | ⟨_, h⟩ := execIrmovq_cases rB v s <;> exact ⟨_, h, rfl⟩
  | rmmovq rA rB d => obtain h | ⟨_, _, _, _, h⟩ := execRmmovq_cases rA rB d s <;> exact ⟨_, h, rfl⟩
  | mrmovq rA rB d => obtain h | ⟨_, _, _, _, h⟩ := execMrmovq_cases rA rB d s <;> exact ⟨_, h, rfl⟩
  | call dest => obtain h | ⟨_, _, h⟩ := execCall_cases dest s <;> exact ⟨_, h, rfl⟩
  | ret => obtain h | ⟨_, _, h⟩ := execRet_cases s <;> exact ⟨_, h, rfl⟩
  | pushq rA => obtain h | ⟨_, _, _, h⟩ := execPushq_cases rA s <;> exact ⟨_, h, rfl⟩
  | popq rA => obtain h | ⟨_, _, _, h⟩ := execPopq_cases rA s <;> exact ⟨_, h, rfl⟩

/-- Settles O24: an operation on named registers completes with its own flags, and no other class writes them. -/
theorem onlyAluOperationsWriteTheFlags : Obligations.OnlyAluOperationsWriteTheFlags :=
  ⟨fun f rA rB hA hB s => ⟨_, (exec_op f rA rB s).trans (aluOp_named f rA rB s hA hB), rfl⟩, exec_keeps_flags⟩

/-! ## The stages as one chain -/

/-- Reading the same value twice is reading it once. -/
theorem orRaise_orRaise_self {α : Type} (s : State) (x : Except CoreError α) (k : α → α → StepOutcome) :
    orRaise s x (fun a => orRaise s x (k a)) = orRaise s x (fun a => k a a) := by
  cases x <;> rfl

theorem orRaise_runStages (s : State) (k : Scratch → StepOutcome) :
    orRaise s (runStages s) k =
      orRaise s (decodeStage s) fun c => orRaise s (operandReadStage s c) fun c => orRaise s (executeStage s c) fun c =>
      orRaise s (memoryStage s c) fun c => orRaise s (writebackStage s c) k := by
  unfold runStages
  cases decodeStage s with
  | error e => rfl
  | ok c =>
    dsimp only [orRaise_ok]
    cases operandReadStage s c with
    | error e => rfl
    | ok c =>
      dsimp only [orRaise_ok]
      cases executeStage s c with
      | error e => rfl
      | ok c =>
        dsimp only [orRaise_ok]
        cases memoryStage s c <;> rfl

theorem orRaise_operandReadStage (s : State) (c : Scratch) (k : Scratch → StepOutcome) :
    orRaise s (operandReadStage s c) k =
      orRaise s (readPort s (srcA c.ins)) fun a => orRaise s (readPort s (srcB c.ins)) fun b =>
      k { c with valA := a, valB := b } := by
  unfold operandReadStage
  cases readPort s (srcA c.ins) <;> cases readPort s (srcB c.ins) <;> rfl

theorem orRaise_executeStage (s : State) (c : Scratch) (k : Scratch → StepOutcome) :
    orRaise s (executeStage s c) k =
      orRaise s (condStage s c.ins) fun cnd => k { c with valE := execValE c cnd, cnd := cnd } := by
  unfold executeStage
  cases condStage s c.ins <;> rfl

theorem orRaise_writtenRegs (s : State) (c : Scratch) (k : Regs → StepOutcome) :
    orRaise s (writtenRegs s c) k =
      orRaise s (writePort s.regs (dstE c.ins) c.valE) fun x => orRaise s (writePort x (dstM c.ins) c.valM) k := by
  unfold writtenRegs
  cases writePort s.regs (dstE c.ins) c.valE <;> rfl

/-- The state a cycle commits (R434), given its memory and its register file. -/
def State.committed (s : State) (c : Scratch) (m : Memory) (x : Regs) : State :=
  { s with
    mem := m
    regs := x
    flags := nextFlags s c
    status := nextStatus s c
    pc := nextPc s c
    cycleCount := s.cycleCount + 1 }

theorem commit_eq (s : State) (c : Scratch) :
    commit s c = orRaise s (nextMem s c) fun m => orRaise s (writtenRegs s c) fun x => .next (s.committed c m x) := rfl

/-- Writeback only checks what the commit writes. -/
theorem orRaise_writebackStage_commit {s : State} {c : Scratch} {m : Memory} (h : nextMem s c = .ok m) :
    orRaise s (writebackStage s c) (commit s) = orRaise s (writtenRegs s c) fun x => .next (s.committed c m x) := by
  unfold writebackStage
  cases hx : writtenRegs s c with
  | error e => rfl
  | ok x => simp only [orRaise_ok, commit_eq, h, hx]

/-- The rest of a cycle from its data access on: the access, the two register writes, and the commit. -/
def accessToCommit (s : State) (c : Scratch) : DataAccess → StepOutcome
  | .none =>
    orRaise s (writtenRegs s { c with valM := 0 }) fun x => .next (s.committed { c with valM := 0 } s.mem x)
  | .read a =>
    orRaise s (memRead s a) fun v =>
    orRaise s (writtenRegs s { c with valM := v }) fun x => .next (s.committed { c with valM := v } s.mem x)
  | .write a v =>
    orRaise s (memWrite s a v) fun m =>
    orRaise s (writtenRegs s { c with valM := 0 }) fun x => .next (s.committed { c with valM := 0 } m x)

/-- The memory the commit writes is that of the cycle's access, whatever valM is. -/
theorem nextMem_of_write {s : State} {c : Scratch} {a : Int} {v : Word} (h : dataAccess c = .write a v) (w : Word) :
    nextMem s { c with valM := w } = memWrite s a v := by
  have h' : dataAccess { c with valM := w } = .write a v := h
  simp only [nextMem, h']

theorem nextMem_of_read {s : State} {c : Scratch} {a : Int} (h : dataAccess c = .read a) (w : Word) :
    nextMem s { c with valM := w } = .ok s.mem := by
  have h' : dataAccess { c with valM := w } = .read a := h
  simp only [nextMem, h']

theorem nextMem_of_none {s : State} {c : Scratch} (h : dataAccess c = .none) (w : Word) :
    nextMem s { c with valM := w } = .ok s.mem := by
  have h' : dataAccess { c with valM := w } = .none := h
  simp only [nextMem, h']

/-- The stages from memory on, and the commit, make the access once. -/
theorem memoryToCommit_eq (s : State) (c : Scratch) :
    (orRaise s (memoryStage s c) fun c => orRaise s (writebackStage s c) (commit s)) =
      accessToCommit s c (dataAccess c) := by
  cases h : dataAccess c with
  | none => simp only [memoryStage, h, orRaise_ok, accessToCommit, orRaise_writebackStage_commit (nextMem_of_none h 0)]
  | read a =>
    cases hr : memRead s a with
    | error e => simp only [memoryStage, h, hr, orRaise_error, accessToCommit]
    | ok v =>
      simp only [memoryStage, h, hr, orRaise_ok, accessToCommit, orRaise_writebackStage_commit (nextMem_of_read h v)]
  | write a v =>
    cases hw : memWrite s a v with
    | error e => simp only [memoryStage, h, hw, orRaise_error, accessToCommit]
    | ok m =>
      simp only [memoryStage, h, hw, orRaise_ok, accessToCommit,
        orRaise_writebackStage_commit ((nextMem_of_write h 0).trans hw)]

/-! ## The stage tables and the instruction rules agree -/

/-- The cycle of decoded fields: operand read, execute, the data access, the register writes, and the commit. -/
def fieldsToCommit (s : State) (f : Fields) : StepOutcome :=
  orRaise s (readPort s (srcA f)) fun a =>
  orRaise s (readPort s (srcB f)) fun b =>
  orRaise s (condStage s f) fun cnd =>
  let c : Scratch := { ins := f, valP := valP s f.icode.length, valA := a, valB := b }
  let c : Scratch := { c with valE := execValE c cnd, cnd := cnd }
  accessToCommit s c (dataAccess c)

theorem orRaise_runStages_commit (s : State) :
    orRaise s (runStages s) (commit s) = orRaise s (decodeFields (fetch s)) (fieldsToCommit s) := by
  rw [orRaise_runStages]
  cases h : decodeFields (fetch s) with
  | error e => simp only [decodeStage, h, orRaise_error]
  | ok f =>
    simp only [decodeStage, h, orRaise_ok, orRaise_operandReadStage, orRaise_executeStage, memoryToCommit_eq,
      fieldsToCommit, decodeFields_len h]

/-- A class that takes a function code stands for an instruction only if its function nibble has a mapping (R310). -/
theorem toInstr_cmov_ok {ifun : Nibble} {rA rB : RegIdx} {v : Word} {n : Nat} {i : Instr}
    (h : Fields.toInstr ⟨.cmov, ifun, rA, rB, v, n⟩ = .ok i) : ∃ c, Cond.ofCode ifun = some c ∧ i = .cmov c rA rB := by
  simp only [Fields.toInstr] at h
  split at h
  · next c hc => exact ⟨c, hc, (Except.ok.inj h).symm⟩
  · cases h

theorem toInstr_op_ok {ifun : Nibble} {rA rB : RegIdx} {v : Word} {n : Nat} {i : Instr}
    (h : Fields.toInstr ⟨.op, ifun, rA, rB, v, n⟩ = .ok i) : ∃ g, AluFun.ofCode ifun = some g ∧ i = .op g rA rB := by
  simp only [Fields.toInstr] at h
  split at h
  · next g hg => exact ⟨g, hg, (Except.ok.inj h).symm⟩
  · cases h

theorem toInstr_jump_ok {ifun : Nibble} {rA rB : RegIdx} {v : Word} {n : Nat} {i : Instr}
    (h : Fields.toInstr ⟨.jump, ifun, rA, rB, v, n⟩ = .ok i) : ∃ c, Cond.ofCode ifun = some c ∧ i = .jump c v := by
  simp only [Fields.toInstr] at h
  split at h
  · next c hc => exact ⟨c, hc, (Except.ok.inj h).symm⟩
  · cases h

/-- The instruction's own rule and the rows of the tables for its class are the same chain of reads, access and writes,
row by row: only a pair of ports that read one register (ret, popq) reads it once less. -/
theorem exec_toInstr {f : Fields} {i : Instr} (s : State) (hi : f.toInstr = .ok i) :
    exec i s = fieldsToCommit s f := by
  obtain ⟨icode, ifun, rA, rB, valC, len⟩ := f
  cases icode with
  | halt | nop | irmov | rmmov | mrmov | call | ret | push | pop =>
    cases hi
    simp only [fieldsToCommit, srcA, srcB, condStage, readPort, orRaise_ok, orRaise_orRaise_self, dataAccess,
      accessToCommit, orRaise_writtenRegs]
    rfl
  | cmov =>
    obtain ⟨c, hc, rfl⟩ := toInstr_cmov_ok hi
    simp only [exec_cmov, fieldsToCommit, srcA, srcB, condStage, hc, readPort, orRaise_ok, dataAccess, accessToCommit,
      orRaise_writtenRegs]
    rfl
  | op =>
    obtain ⟨g, hg, rfl⟩ := toInstr_op_ok hi
    simp only [exec_op, fieldsToCommit, srcA, srcB, condStage, readPort, orRaise_ok, dataAccess, accessToCommit,
      orRaise_writtenRegs, execValE, State.committed, nextFlags, hg]
    rfl
  | jump =>
    obtain ⟨c, hc, rfl⟩ := toInstr_jump_ok hi
    simp only [exec_jump, fieldsToCommit, srcA, srcB, condStage, hc, readPort, orRaise_ok, dataAccess, accessToCommit,
      orRaise_writtenRegs]
    rfl

/-- Fields that decode stand for an instruction: the decoder has checked the function nibble (R311). -/
theorem decodeFields_toInstr {bs : List Byte} {f : Fields} (h : decodeFields bs = .ok f) : ∃ i, f.toInstr = .ok i := by
  cases bs with
  | nil => cases h
  | cons b0 rest =>
    rcases firstByte_cases b0 with hnone | ⟨c, g, rfl⟩
    · rw [decodeFields_none b0 rest hnone] at h; cases h
    · rw [decodeFields_pair] at h
      split_ifs at h with hg
      cases h
      obtain ⟨i, hi, -⟩ := fieldsOf_toInstr_ok c g (pair c.code g :: rest) hg
      exact ⟨i, hi⟩

/-- While Running, a step runs the stage tables and commits. -/
theorem step_running_eq_stages {s : State} (h : s.status = .running) :
    step s = orRaise s (runStages s) (commit s) := by
  rw [step_running h, orRaise_runStages_commit]
  cases hf : decodeFields (fetch s) with
  | error e => simp only [decodeAt, decode, hf, orRaise_error]
  | ok f =>
    obtain ⟨i, hi⟩ := decodeFields_toInstr hf
    simp only [decodeAt, decode, hf, hi, orRaise_ok, exec_toInstr s hi]

/-! ## The status FSM (R431) -/

theorem memoryStage_ok_nextMem {s : State} {c d : Scratch} (h : memoryStage s c = .ok d) :
    ∃ m, nextMem s d = .ok m := by
  unfold memoryStage at h
  split at h
  · next ha => cases h; exact ⟨_, nextMem_of_none ha 0⟩
  · next ha => split at h <;> cases h; exact ⟨_, nextMem_of_read ha _⟩
  · next ha =>
    split at h
    · next hw => cases h; exact ⟨_, (nextMem_of_write ha 0).trans hw⟩
    · cases h

theorem writebackStage_ok_writtenRegs {s : State} {c d : Scratch} (h : writebackStage s c = .ok d) :
    ∃ x, writtenRegs s c = .ok x := by
  unfold writebackStage at h
  split at h
  · next x hx => exact ⟨x, hx⟩
  · cases h

/-- The last two stages of a cycle that completes. -/
theorem runStages_ok {s : State} {c : Scratch} (h : runStages s = .ok c) :
    ∃ c', memoryStage s c' = .ok c ∧ writebackStage s c = .ok c := by
  unfold runStages at h
  split at h; · cases h
  split at h; · cases h
  split at h; · cases h
  split at h; · cases h
  next c' _ _ d hm =>
    obtain rfl := writebackStage_keeps h
    exact ⟨c', hm, h⟩

/-- A cycle whose stages complete commits: the checks of the commit have all been made. -/
theorem commit_of_runStages_ok {s : State} {c : Scratch} (h : runStages s = .ok c) :
    ∃ m x, commit s c = .next (s.committed c m x) := by
  obtain ⟨c', hmem, hwb⟩ := runStages_ok h
  obtain ⟨m, hm⟩ := memoryStage_ok_nextMem hmem
  obtain ⟨x, hx⟩ := writebackStage_ok_writtenRegs hwb
  exact ⟨m, x, by simp only [commit_eq, hm, hx, orRaise_ok]⟩

theorem step_of_runStages_ok {s : State} {c : Scratch} (hs : s.status = .running) (h : runStages s = .ok c) :
    ∃ m x, step s = .next (s.committed c m x) := by
  rw [step_running_eq_stages hs, h]
  exact commit_of_runStages_ok h

theorem step_of_runStages_error {s : State} {e : CoreError} (hs : s.status = .running) (h : runStages s = .error e) :
    step s = .next (s.errorState e) := by
  rw [step_running_eq_stages hs, h]
  rfl

theorem nextStatus_halt {s : State} {c : Scratch} (h : c.ins.icode = .halt) : nextStatus s c = .halted := by
  simp only [nextStatus, h]

theorem nextStatus_of_ne_halt {s : State} {c : Scratch} (h : c.ins.icode ≠ .halt) : nextStatus s c = s.status := by
  unfold nextStatus
  split
  case h_1 hc => exact absurd hc h
  all_goals rfl

/-- Settles O11: a cycle that completes commits its class's status and keeps err, one that raises leaves its error, and
the terminal states do not step. -/
theorem statusFollowsTheFsm : Obligations.StatusFollowsTheFsm := by
  intro s hinv
  have noErr (h : s.status ≠ .errored) : s.err = none := Option.not_isSome_iff_eq_none.1 (mt hinv.1 h)
  refine ⟨fun hs c hc hi => ?_, fun hs c hc hi => ?_, fun hs e he => ?_, fun hs => ?_, fun hs => ?_⟩
  · obtain ⟨m, x, hstep⟩ := step_of_runStages_ok hs hc
    exact ⟨_, hstep, (nextStatus_of_ne_halt hi).trans hs, noErr (by simp [hs])⟩
  · obtain ⟨m, x, hstep⟩ := step_of_runStages_ok hs hc
    exact ⟨_, hstep, nextStatus_halt hi, noErr (by simp [hs])⟩
  · exact ⟨_, step_of_runStages_error hs he, rfl, rfl⟩
  · exact ⟨s, step_halted hs, hs, noErr (by simp [hs])⟩
  · exact ⟨s, step_errored hs, hs, rfl⟩

end Sys2Proof.Machine
end

section
/-! The move family's proof: irmovq (R470). -/

namespace Sys2Proof.Machine

/-- The bytes of irmovq decode to the immediate and rB, whatever the function nibble and rA hold (R304, R308). -/
theorem decode_pair_irmovq (f rA rB : Nibble) (v : Word) (rest : List Byte) :
    decode (pair IClass.irmov.code f :: pair rA rB :: (leBytes v ++ rest)) = .ok (.irmovq rB v) := by
  have henough : ¬ (pair rA rB :: (leBytes v ++ rest)).length + 1 < IClass.irmov.length := by
    simp only [List.length_cons, List.length_append, leBytes_length, IClass.length]; omega
  rw [decode_pair, if_pos (IClass.takesFun_of_ignoresFun rfl f), if_neg henough]
  simp [fieldsOf, Fields.toInstr, immediateOf, IClass.hasRegByte]

/-- irmovq to a named register completes. -/
theorem execIrmovq_named (rB : RegIdx) (hB : rB.val < numRegs) (v : Word) (s : State) :
    execIrmovq rB v s = .next ({ s with regs := s.regs.set rB.val v }.retire (valP s 10)) := by
  simp only [execIrmovq, writeReg_named, hB, orRaise_ok]

/-- Register field 15 is caught at writeback (R421). -/
theorem execIrmovq_none (v : Word) (s : State) : execIrmovq 15 v s = failed s .addressOutOfBounds := by
  simp only [execIrmovq, writeReg_none, orRaise_error]; rfl

/-- Settles O28: the ten bytes decode to irmovq, so fewer are too few; executing writes rB or, at 15, raises. -/
theorem irmovqLoadsItsImmediate : Obligations.IrmovqLoadsItsImmediate := by
  refine ⟨decode_pair_irmovq, execIrmovq_named, execIrmovq_none, fun f rA rB v k hk => ?_⟩
  have hten := decode_pair_irmovq f rA rB v []
  rw [List.append_nil] at hten
  exact decode_take_of_lt_length hten hk

end Sys2Proof.Machine
end

section
/-! The control family's proof: call (R540). -/

namespace Sys2Proof.Machine

/-- A store in bounds completes (R206). -/
theorem memWrite_inBounds {s : State} {a : Int} (v : Word) (h0 : 0 ≤ a) (h8 : a + 8 ≤ s.memSize) :
    memWrite s a v = .ok (s.mem.setBytes a.toNat (leBytes v)) :=
  if_pos ((wordInBounds_iff _ _).2 ⟨h0, h8⟩)

/-- The bytes of call decode to its destination, whatever the function nibble holds (R304, R308). -/
theorem decode_pair_call (f : Nibble) (dest : Word) (rest : List Byte) :
    decode (pair IClass.call.code f :: (leBytes dest ++ rest)) = .ok (.call dest) := by
  have henough : ¬ (leBytes dest ++ rest).length + 1 < IClass.call.length := by
    simp only [List.length_append, leBytes_length, IClass.length]; omega
  rw [decode_pair, if_pos (IClass.takesFun_of_ignoresFun rfl f), if_neg henough]
  simp [fieldsOf, Fields.toInstr, immediateOf]

/-- call with its slot in memory commits: the slot `pushAddr` is in bounds exactly when 8 ≤ x[SP] ≤ MEM_SIZE (R414). -/
theorem execCall_inBounds (dest : Word) (s : State) (hlo : 8 ≤ s.sp.toInt) (hhi : s.sp.toInt ≤ s.memSize) :
    execCall dest s =
      .next ({ s with
        mem := s.mem.setBytes (pushAddr s.sp).toNat (leBytes (valP s 9))
        regs := s.regs.set SP.val (s.sp - stackDelta) SP_named }.retire dest) := by
  have hstore := memWrite_inBounds (valP s 9) (show 0 ≤ pushAddr s.sp from Int.sub_nonneg_of_le hlo)
    (show pushAddr s.sp + 8 ≤ s.memSize from (Int.sub_add_cancel _ _).trans_le hhi)
  simp only [State.sp] at hstore ⊢
  simp only [execCall, readReg_named, writeReg_named, SP_named, orRaise_ok, hstore]

/-- call with any part of its slot outside memory raises (R206): a call that commits has x[SP] within its bounds. -/
theorem execCall_outOfBounds (dest : Word) (s : State) (hout : s.sp.toInt < 8 ∨ s.memSize < s.sp.toInt) :
    execCall dest s = failed s .addressOutOfBounds := by
  rcases execCall_cases dest s with h | ⟨h0, h8, -⟩
  · exact h
  · simp only [pushAddr] at h0 h8
    simp only [State.sp] at hout
    omega

/-- Settles O34: the nine bytes decode to call, so fewer are too few; executing pushes the return address and jumps, or
raises where the slot leaves memory. -/
theorem callPushesTheReturnAddress : Obligations.CallPushesTheReturnAddress := by
  refine ⟨decode_pair_call, execCall_inBounds, execCall_outOfBounds, fun f dest k hk => ?_⟩
  have hnine := decode_pair_call f dest []
  rw [List.append_nil] at hnine
  exact decode_take_of_lt_length hnine hk

end Sys2Proof.Machine
end

section
/-! The encoding proofs over all instructions: the decoder's two errors by the first byte, then every encoding decoded
and every decoding an encoding (R300 to R320). -/

namespace Sys2Proof

/-! ## The decoder's errors (R310, R320) -/

theorem decode_pair_eq_invalidEncoding_iff (c : IClass) (f : Nibble) (rest : List Byte) :
    decode (pair c.code f :: rest) = .error .invalidEncoding ↔ c.takesFun f = false := by
  rw [decode_pair]
  split_ifs with hf hlen
  · simp [hf]
  · obtain ⟨i, hi, -⟩ := fieldsOf_toInstr_ok c f (pair c.code f :: rest) hf
    simp [hf, hi]
  · simp [hf]

theorem decode_pair_eq_addressOutOfBounds_iff (c : IClass) (f : Nibble) (rest : List Byte) :
    decode (pair c.code f :: rest) = .error .addressOutOfBounds ↔
      c.takesFun f = true ∧ rest.length + 1 < c.length := by
  rw [decode_pair]
  split_ifs with hf hlen
  · simp [hf, hlen]
  · obtain ⟨i, hi, -⟩ := fieldsOf_toInstr_ok c f (pair c.code f :: rest) hf
    simp [hi, hlen]
  · simp [hf]

/-- R310's list, class by class: the classes 2 and 7 take seven function nibbles and the class 6 four. -/
theorem IClass.takesFun_eq_false_iff (c : IClass) (f : Nibble) :
    c.takesFun f = false ↔
      (0xC ≤ c.code.val ∨ (c.code.val = 0x2 ∨ c.code.val = 0x7) ∧ 0x7 ≤ f.val ∨ c.code.val = 0x6 ∧ 0x4 ≤ f.val) := by
  revert f; cases c <;> decide

/-- The first bytes that decode to nothing (R310). -/
theorem decode_eq_invalidEncoding_iff (b0 : Byte) (rest : List Byte) :
    decode (b0 :: rest) = .error .invalidEncoding ↔
      (0xC ≤ (hiNibble b0).val ∨
        ((hiNibble b0).val = 0x2 ∨ (hiNibble b0).val = 0x7) ∧ 0x7 ≤ (loNibble b0).val ∨
        (hiNibble b0).val = 0x6 ∧ 0x4 ≤ (loNibble b0).val) := by
  rcases firstByte_cases b0 with hnone | ⟨c, f, rfl⟩
  · exact iff_of_true (decode_none b0 rest hnone) (.inl ((IClass.ofCode_eq_none _).1 hnone))
  · rw [decode_pair_eq_invalidEncoding_iff, IClass.takesFun_eq_false_iff, hiNibble_pair, loNibble_pair]

theorem decode_pair_nop (f : Nibble) (rest : List Byte) : decode (pair IClass.nop.code f :: rest) = .ok .nop := by
  simp [decode_pair, IClass.takesFun, IClass.length, fieldsOf, Fields.toInstr]

theorem decode_eq_nop_iff (b0 : Byte) (rest : List Byte) :
    decode (b0 :: rest) = .ok .nop ↔ (hiNibble b0).val = 0x1 := by
  constructor
  · intro h
    obtain ⟨f, rfl, -⟩ := decode_cons_ok h
    rw [hiNibble_pair]; rfl
  · intro h
    have hcode : hiNibble b0 = IClass.nop.code := Fin.ext h
    rw [← pair_nibbles b0, hcode]
    exact decode_pair_nop _ rest

/-- Settles O4: the decoder rejects what has no class and what its class does not take, and nop is the class 1. -/
theorem invalidEncodingOnExactlyTheListedBytes : Obligations.InvalidEncodingOnExactlyTheListedBytes :=
  fun b0 rest => ⟨decode_eq_invalidEncoding_iff b0 rest, decode_eq_nop_iff b0 rest⟩

/-- Settles O6: with no byte there is nothing to check; else the first byte's class and function nibble come first. -/
theorem missingBytesAreCheckedAfterTheNibbles : Obligations.MissingBytesAreCheckedAfterTheNibbles := by
  intro bs
  constructor
  · intro h
    cases bs with
    | nil => exact .inl rfl
    | cons b0 rest =>
      rcases firstByte_cases b0 with hnone | ⟨c, f, rfl⟩
      · rw [decode_none b0 rest hnone] at h; cases h
      · obtain ⟨hf, hlen⟩ := (decode_pair_eq_addressOutOfBounds_iff c f rest).1 h
        exact .inr ⟨_, rest, c, rfl, by simp, by simpa using hf, hlen⟩
  · rintro (rfl | ⟨b0, rest, c, rfl, hc, hf, hlen⟩)
    · rfl
    · rw [← pair_nibbles b0, (IClass.ofCode_eq_some _ _).1 hc]
      exact (decode_pair_eq_addressOutOfBounds_iff c _ rest).2 ⟨hf, hlen⟩

/-! ## The bytes of each family decode -/

@[simp] theorem Cond.takesFun_cmov (c : Cond) : IClass.cmov.takesFun c.code = true := by cases c <;> rfl

@[simp] theorem Cond.takesFun_jump (c : Cond) : IClass.jump.takesFun c.code = true := by cases c <;> rfl

@[simp] theorem AluFun.takesFun_op (g : AluFun) : IClass.op.takesFun g.code = true := by cases g <;> rfl

theorem decode_pair_cmov (c : Cond) (rA rB : Nibble) (rest : List Byte) :
    decode (pair IClass.cmov.code c.code :: pair rA rB :: rest) = .ok (.cmov c rA rB) := by
  simp [decode_pair, IClass.length, fieldsOf, Fields.toInstr, IClass.hasRegByte]

theorem decode_pair_op (g : AluFun) (rA rB : Nibble) (rest : List Byte) :
    decode (pair IClass.op.code g.code :: pair rA rB :: rest) = .ok (.op g rA rB) := by
  simp [decode_pair, IClass.length, fieldsOf, Fields.toInstr, IClass.hasRegByte]

theorem decode_pair_pushq (f rA rB : Nibble) (rest : List Byte) :
    decode (pair IClass.push.code f :: pair rA rB :: rest) = .ok (.pushq rA) := by
  simp [decode_pair, IClass.takesFun, IClass.length, fieldsOf, Fields.toInstr, IClass.hasRegByte]

theorem decode_pair_popq (f rA rB : Nibble) (rest : List Byte) :
    decode (pair IClass.pop.code f :: pair rA rB :: rest) = .ok (.popq rA) := by
  simp [decode_pair, IClass.takesFun, IClass.length, fieldsOf, Fields.toInstr, IClass.hasRegByte]

/-- A first byte that passes its check, with every byte of its class, decodes to what the fields stand for (R320). -/
theorem decode_pair_complete {c : IClass} {f : Nibble} {rest : List Byte} (hf : c.takesFun f = true)
    (hlen : c.length ≤ rest.length + 1) :
    decode (pair c.code f :: rest) = (fieldsOf c f (pair c.code f :: rest)).toInstr := by
  rw [decode_pair, if_pos hf, if_neg (not_lt.2 hlen)]

theorem decode_pair_rmmovq (f rA rB : Nibble) (d : Word) (rest : List Byte) :
    decode (pair IClass.rmmov.code f :: pair rA rB :: (leBytes d ++ rest)) = .ok (.rmmovq rA rB d) := by
  rw [decode_pair_complete rfl (by simp [IClass.length])]
  simp [fieldsOf, Fields.toInstr, immediateOf, IClass.hasRegByte]

theorem decode_pair_mrmovq (f rA rB : Nibble) (d : Word) (rest : List Byte) :
    decode (pair IClass.mrmov.code f :: pair rA rB :: (leBytes d ++ rest)) = .ok (.mrmovq rA rB d) := by
  rw [decode_pair_complete rfl (by simp [IClass.length])]
  simp [fieldsOf, Fields.toInstr, immediateOf, IClass.hasRegByte]

theorem decode_pair_jump (c : Cond) (dest : Word) (rest : List Byte) :
    decode (pair IClass.jump.code c.code :: (leBytes dest ++ rest)) = .ok (.jump c dest) := by
  rw [decode_pair_complete c.takesFun_jump (by simp [IClass.length])]
  simp [fieldsOf, Fields.toInstr, immediateOf]

/-! ## Every encoding decodes, and every decoding is of an encoding -/

/-- The decoder reads any encoding of an instruction, whatever its ignored nibbles and whatever follows. -/
theorem decode_encodeWith (f r : Nibble) (i : Instr) (rest : List Byte) :
    decode (encodeWith f r i ++ rest) = .ok i := by
  cases i with
  | halt => exact decode_pair_halt f rest
  | nop => exact decode_pair_nop f rest
  | rrmovq rA rB => exact decode_pair_cmov .always rA rB rest
  | cmovle rA rB => exact decode_pair_cmov .le rA rB rest
  | cmovl rA rB => exact decode_pair_cmov .l rA rB rest
  | cmove rA rB => exact decode_pair_cmov .e rA rB rest
  | cmovne rA rB => exact decode_pair_cmov .ne rA rB rest
  | cmovge rA rB => exact decode_pair_cmov .ge rA rB rest
  | cmovg rA rB => exact decode_pair_cmov .g rA rB rest
  | irmovq rB v => exact Machine.decode_pair_irmovq f r rB v rest
  | rmmovq rA rB d => exact decode_pair_rmmovq f rA rB d rest
  | mrmovq rA rB d => exact decode_pair_mrmovq f rA rB d rest
  | addq rA rB => exact decode_pair_op .add rA rB rest
  | subq rA rB => exact decode_pair_op .sub rA rB rest
  | andq rA rB => exact decode_pair_op .and rA rB rest
  | xorq rA rB => exact decode_pair_op .xor rA rB rest
  | jmp dest => exact decode_pair_jump .always dest rest
  | jle dest => exact decode_pair_jump .le dest rest
  | jl dest => exact decode_pair_jump .l dest rest
  | je dest => exact decode_pair_jump .e dest rest
  | jne dest => exact decode_pair_jump .ne dest rest
  | jge dest => exact decode_pair_jump .ge dest rest
  | jg dest => exact decode_pair_jump .g dest rest
  | call dest => exact Machine.decode_pair_call f dest rest
  | ret => exact decode_pair_ret f rest
  | pushq rA => exact decode_pair_pushq f rA r rest
  | popq rA => exact decode_pair_popq f rA r rest

/-- Settles O1: the assembler's encoding is one of the encodings the decoder reads. -/
theorem decodeOfEncodeIsTheInstruction : Obligations.DecodeOfEncodeIsTheInstruction :=
  decode_encodeWith 0x0 0xF

theorem encodeWith_cmov (f r : Nibble) (c : Cond) (rA rB : RegIdx) :
    encodeWith f r (.cmov c rA rB) = [pair IClass.cmov.code c.code, pair rA rB] := by
  cases c <;> rfl

theorem encodeWith_op (f r : Nibble) (g : AluFun) (rA rB : RegIdx) :
    encodeWith f r (.op g rA rB) = [pair IClass.op.code g.code, pair rA rB] := by
  cases g <;> rfl

theorem encodeWith_jump (f r : Nibble) (c : Cond) (dest : Word) :
    encodeWith f r (.jump c dest) = pair IClass.jump.code c.code :: leBytes dest := by
  cases c <;> rfl

/-- A function nibble that the conditional classes take is a condition's (R302). -/
theorem exists_cond_code {f : Nibble} (h : (Cond.ofCode f).isSome = true) : ∃ c : Cond, f = c.code := by
  obtain ⟨c, hc⟩ := Option.isSome_iff_exists.1 h
  exact ⟨c, (Cond.ofCode_eq_some f c).1 hc⟩

/-- A function nibble that the class op takes is an ALU operation's (R303). -/
theorem exists_aluFun_code {f : Nibble} (h : (AluFun.ofCode f).isSome = true) : ∃ g : AluFun, f = g.code := by
  obtain ⟨g, hg⟩ := Option.isSome_iff_exists.1 h
  exact ⟨g, (AluFun.ofCode_eq_some f g).1 hg⟩

/-- A register byte and an immediate, as format F10 has them. -/
theorem exists_pair_leBytes (l : List Byte) (h : 9 ≤ l.length) : ∃ x y v rest, l = pair x y :: (leBytes v ++ rest) := by
  obtain ⟨x, y, l, rfl⟩ := exists_pair l (by omega)
  obtain ⟨v, rest, rfl⟩ := exists_leBytes l (Nat.le_of_succ_le_succ h)
  exact ⟨x, y, v, rest, rfl⟩

/-- Bytes that pass the decoder's checks begin with an encoding: of the first byte's class, with the operands read. -/
theorem exists_encodeWith_append (c : IClass) (f : Nibble) (rest : List Byte) (hf : c.takesFun f = true)
    (hlen : c.length ≤ rest.length + 1) :
    ∃ g r i tail, pair c.code f :: rest = encodeWith g r i ++ tail := by
  have hrest : c.length - 1 ≤ rest.length := by omega
  cases c with
  | halt => exact ⟨f, 0, .halt, rest, rfl⟩
  | nop => exact ⟨f, 0, .nop, rest, rfl⟩
  | ret => exact ⟨f, 0, .ret, rest, rfl⟩
  | cmov =>
    obtain ⟨k, rfl⟩ := exists_cond_code hf
    obtain ⟨x, y, tail, rfl⟩ := exists_pair rest hrest
    exact ⟨0, 0, .cmov k x y, tail, by rw [encodeWith_cmov]; rfl⟩
  | op =>
    obtain ⟨g, rfl⟩ := exists_aluFun_code hf
    obtain ⟨x, y, tail, rfl⟩ := exists_pair rest hrest
    exact ⟨0, 0, .op g x y, tail, by rw [encodeWith_op]; rfl⟩
  | push =>
    obtain ⟨x, y, tail, rfl⟩ := exists_pair rest hrest
    exact ⟨f, y, .pushq x, tail, rfl⟩
  | pop =>
    obtain ⟨x, y, tail, rfl⟩ := exists_pair rest hrest
    exact ⟨f, y, .popq x, tail, rfl⟩
  | jump =>
    obtain ⟨k, rfl⟩ := exists_cond_code hf
    obtain ⟨v, tail, rfl⟩ := exists_leBytes rest hrest
    exact ⟨0, 0, .jump k v, tail, by rw [encodeWith_jump]; rfl⟩
  | call =>
    obtain ⟨v, tail, rfl⟩ := exists_leBytes rest hrest
    exact ⟨f, 0, .call v, tail, rfl⟩
  | irmov =>
    obtain ⟨x, y, v, tail, rfl⟩ := exists_pair_leBytes rest hrest
    exact ⟨f, x, .irmovq y v, tail, rfl⟩
  | rmmov =>
    obtain ⟨x, y, v, tail, rfl⟩ := exists_pair_leBytes rest hrest
    exact ⟨f, 0, .rmmovq x y v, tail, rfl⟩
  | mrmov =>
    obtain ⟨x, y, v, tail, rfl⟩ := exists_pair_leBytes rest hrest
    exact ⟨f, 0, .mrmovq x y v, tail, rfl⟩

/-- Settles O2: accepted bytes begin with an encoding, and the decoder answers the instruction that one encodes. -/
theorem decodeAcceptsExactlyTheEncodings : Obligations.DecodeAcceptsExactlyTheEncodings := by
  intro bs i
  constructor
  · intro h
    cases bs with
    | nil => cases h
    | cons b0 rest =>
      obtain ⟨f, rfl, hf, hlen, -⟩ := decode_cons_ok h
      obtain ⟨g, r, j, tail, hbytes⟩ := exists_encodeWith_append i.iclass f rest hf hlen
      rw [hbytes, decode_encodeWith] at h
      obtain rfl : j = i := Except.ok.inj h
      exact ⟨g, r, tail, hbytes⟩
  · rintro ⟨f, r, rest, rfl⟩
    exact decode_encodeWith f r i rest

/-- Settles O7: each word is an encoding, as an assembler or a programmer would write it. -/
theorem wordsOfEachFamilyDecode : Obligations.WordsOfEachFamilyDecode :=
  ⟨decode_encodeWith 0x0 0xF .halt [], decode_encodeWith 0xF 0xF .nop [],
    decode_encodeWith 0x0 0xF (.rrmovq rax rbx) [], decode_encodeWith 0x0 0xF (.cmovg rsp rbp) [],
    decode_encodeWith 0x0 0xF (.irmovq rsp 0x200) [], decode_encodeWith 0x0 0xF (.rmmovq rax rbx 0xFFFFFFFFFFFFFFF8) [],
    decode_encodeWith 0x0 0xF (.mrmovq rcx rbx 8) [], decode_encodeWith 0x0 0xF (.subq rbx rax) [],
    decode_encodeWith 0x0 0xF (.jne 0x65) [], decode_encodeWith 0x0 0xF (.call 0x30) [],
    decode_encodeWith 0x0 0xF .ret [], decode_encodeWith 0x0 0xF (.pushq rsp) [],
    decode_encodeWith 0x0 0xF (.popq rdi) []⟩

end Sys2Proof
end

section
/-! The cycle's proofs: what a step fetches, what it commits, and what it reads (R320, R400, R432 to R434). -/

namespace Sys2Proof.Machine

/-! ## What a step fetches (R105, R320) -/

theorem toInt_toNat_of_nonneg {w : Word} (h : 0 ≤ w.toInt) : w.toInt.toNat = w.toNat := by
  rw [BitVec.toInt_eq_toNat_cond] at h ⊢
  split_ifs at h ⊢ <;> omega

theorem prefix_bytesFrom {s : State} {a k : Nat} {bs : List Byte} (h : s.bytesAt a bs) (hk : bs.length ≤ k) :
    bs <+: bytesFrom s a k := by
  obtain ⟨hfit, hbytes⟩ := h
  refine List.prefix_iff_getElem.2 ⟨by rw [bytesFrom_length]; omega, fun i hi => ?_⟩
  rw [bytesFrom_getElem]
  exact (hbytes i hi).symm

theorem fetch_of_bytesAt {s : State} {bs : List Byte} (hpc : 0 ≤ s.pc.toInt) (h : s.bytesAt s.pc.toNat bs)
    (hlen : bs.length ≤ 10) : ∃ rest, fetch s = bs ++ rest := by
  obtain ⟨rest, hrest⟩ := prefix_bytesFrom h hlen
  exact ⟨rest, by rw [fetch, if_pos hpc, toInt_toNat_of_nonneg hpc, hrest]⟩

theorem fetch_of_pcValid {s : State} (h : s.pcValid) : ∃ rest, fetch s = s.byte s.pc.toNat :: rest := by
  obtain ⟨hpc, hsize⟩ := h
  have hat : s.bytesAt s.pc.toNat [s.byte s.pc.toNat] := by
    refine ⟨?_, fun k hk => ?_⟩
    · rw [← toInt_toNat_of_nonneg hpc, List.length_singleton]; omega
    · obtain rfl : k = 0 := by simpa using hk
      rfl
  exact fetch_of_bytesAt hpc hat (by simp)

theorem fetch_of_not_pcValid {s : State} (h : ¬ s.pcValid) : fetch s = [] := by
  unfold fetch
  split
  · next hpc =>
    have hpast : ¬ s.pc.toInt < s.memSize := fun hlt => h ⟨hpc, hlt⟩
    refine List.eq_nil_of_length_eq_zero ?_
    rw [bytesFrom_length]; omega
  · rfl

theorem encodeWith_length_le (f r : Nibble) (i : Instr) : (encodeWith f r i).length ≤ 10 := by
  cases i <;> exact Nat.le_of_ble_eq_true rfl

theorem step_of_decodeAt_ok {s : State} {i : Instr} (hs : s.status = .running) (h : decodeAt s = .ok i) :
    step s = exec i s := by
  rw [step_running hs, h]

theorem step_of_decodeAt_error {s : State} {e : CoreError} (hs : s.status = .running) (h : decodeAt s = .error e) :
    step s = failed s e := by
  rw [step_running hs, h]; rfl

theorem step_of_runsBytes {s : State} {i : Instr} {f r : Nibble} (h : s.runsBytes (encodeWith f r i)) :
    step s = exec i s := by
  obtain ⟨hs, hpc, hat⟩ := h
  obtain ⟨rest, hfetch⟩ := fetch_of_bytesAt hpc hat (encodeWith_length_le f r i)
  exact step_of_decodeAt_ok hs (by rw [decodeAt, hfetch, decode_encodeWith])

/-- Settles O8: the fetch begins with the bytes at the pc, and any encoding of an instruction decodes to it. -/
theorem stepRunsTheInstructionAtThePc : Obligations.StepRunsTheInstructionAtThePc :=
  ⟨fun _ _ _ _ h => step_of_runsBytes h, fun _ _ hs h => step_of_decodeAt_ok hs h⟩

/-- A pc outside memory has no byte to decode. -/
theorem step_of_not_pcValid (s : State) (hs : s.status = .running) (h : ¬ s.pcValid) :
    step s = failed s .addressOutOfBounds :=
  step_of_decodeAt_error hs (by rw [decodeAt, fetch_of_not_pcValid h]; rfl)

/-- Settles O9: without a byte at the pc nothing decodes, and a listed first byte is rejected whatever follows. -/
theorem failingDecodeEndsTheRun : Obligations.FailingDecodeEndsTheRun := by
  refine ⟨step_of_not_pcValid, fun s hs hpc hfirst => ?_⟩
  obtain ⟨rest, hfetch⟩ := fetch_of_pcValid hpc
  exact step_of_decodeAt_error hs (by rw [decodeAt, hfetch]; exact (decode_eq_invalidEncoding_iff _ _).2 hfirst)

/-- Settles O33, by induction on the number of steps: a step leaves a state that differs in cycleCount only, and the
bytes at the pc are still the jump's. -/
theorem jumpToItselfRunsForever : Obligations.JumpToItselfRunsForever := by
  intro s n h
  induction n generalizing s with
  | zero => simp [run_zero]
  | succ n ih =>
    have hstep : step s = .next { s with cycleCount := s.cycleCount + 1 } := step_of_runsBytes h
    rw [run_succ_of_step n hstep, ih { s with cycleCount := s.cycleCount + 1 } h]
    rw [BitVec.ofNat_add, BitVec.add_comm (BitVec.ofNat 64 n), ← BitVec.add_assoc]
    rfl

/-! ## What a cycle leaves (R433, R434) -/

/-- The writes of a cycle that completes have all been checked by its stages. -/
theorem writes_of_runStages_ok {s : State} {c : Scratch} (h : runStages s = .ok c) :
    ∃ m x, nextMem s c = .ok m ∧ writtenRegs s c = .ok x := by
  obtain ⟨c', hmem, hwb⟩ := runStages_ok h
  obtain ⟨m, hm⟩ := memoryStage_ok_nextMem hmem
  obtain ⟨x, hx⟩ := writebackStage_ok_writtenRegs hwb
  exact ⟨m, x, hm, hx⟩

theorem step_of_writes {s : State} {c : Scratch} {m : Memory} {x : Regs} (hs : s.status = .running)
    (hr : runStages s = .ok c) (hm : nextMem s c = .ok m) (hx : writtenRegs s c = .ok x) :
    step s = .next (s.committed c m x) := by
  simp only [step_running_eq_stages hs, hr, commit_eq, hm, hx, orRaise_ok]

/-- What a step can do, said once: nothing in a terminal state, and in a running one an error or a commit. -/
theorem step_cases (s : State) :
    (s.status ≠ .running ∧ step s = .next s) ∨
    (∃ e, s.status = .running ∧ runStages s = .error e ∧ step s = .next (s.errorState e)) ∨
    (∃ c m x, s.status = .running ∧ runStages s = .ok c ∧ nextMem s c = .ok m ∧ writtenRegs s c = .ok x ∧
      step s = .next (s.committed c m x)) := by
  by_cases hs : s.status = .running
  · cases hr : runStages s with
    | error e => exact .inr (.inl ⟨e, hs, rfl, step_of_runStages_error hs hr⟩)
    | ok c =>
      obtain ⟨m, x, hm, hx⟩ := writes_of_runStages_ok hr
      exact .inr (.inr ⟨c, m, x, hs, rfl, hm, hx, step_of_writes hs hr hm hx⟩)
  · exact .inl ⟨hs, step_of_not_running hs⟩

/-- Settles O12: each of the three cases of a step answers a next state. -/
theorem everyStepAnswersANextState : Obligations.EveryStepAnswersANextState := by
  intro s
  obtain ⟨-, h⟩ | ⟨e, -, -, h⟩ | ⟨c, m, x, -, -, -, -, h⟩ := step_cases s <;> exact ⟨_, h⟩

/-- Settles O13: while Running the instruction's rule is the tables' cycle, and the terminal states do not step. -/
theorem stageTablesAgreeWithInstructionRules : Obligations.StageTablesAgreeWithInstructionRules := by
  intro s
  cases hs : s.status with
  | running => rw [step_running_eq_stages hs, stepByStages, hs]
  | halted => rw [step_halted hs, stepByStages, hs]
  | errored => rw [step_errored hs, stepByStages, hs]

/-- A cycle that completes from Running does not come to Errored (R431). -/
theorem nextStatus_ne_errored {s : State} (c : Scratch) (hs : s.status = .running) : nextStatus s c ≠ .errored := by
  by_cases hc : c.ins.icode = .halt
  · simp [nextStatus_halt hc]
  · simp [nextStatus_of_ne_halt hc, hs]

/-- Settles O14: a cycle that raises leaves `errorState`, and one that commits is not Errored. -/
theorem anErrorIsPrecise : Obligations.AnErrorIsPrecise := by
  refine ⟨fun s e hs he => step_of_runStages_error hs he, fun s t hs hstep ht => ?_⟩
  cases hr : runStages s with
  | error e => exact ⟨e, rfl, Host.Outcome.next.inj (hstep.symm.trans (step_of_runStages_error hs hr))⟩
  | ok c =>
    obtain ⟨m, x, hcommit⟩ := step_of_runStages_ok hs hr
    obtain rfl := Host.Outcome.next.inj (hstep.symm.trans hcommit)
    exact absurd ht (nextStatus_ne_errored c hs)

/-- Settles O15: the commit counts and the error state does not. -/
theorem cycleCountCountsCompletedCycles : Obligations.CycleCountCountsCompletedCycles := by
  intro s hs
  cases hr : runStages s with
  | error e => exact ⟨_, step_of_runStages_error hs hr, by rintro ⟨_, ⟨⟩⟩, fun _ => rfl⟩
  | ok c =>
    obtain ⟨m, x, hcommit⟩ := step_of_runStages_ok hs hr
    exact ⟨_, hcommit, fun _ => rfl, by rintro ⟨_, ⟨⟩⟩⟩

/-! ## No stage reads cycleCount -/

theorem bytesFrom_cycleCount (s : State) (n : Word) (a k : Nat) :
    bytesFrom { s with cycleCount := n } a k = bytesFrom s a k := by
  induction k generalizing a with
  | zero => rfl
  | succ k ih => simp only [bytesFrom, ih]

theorem decodeStage_cycleCount (s : State) (n : Word) : decodeStage { s with cycleCount := n } = decodeStage s := by
  simp only [decodeStage, fetch, bytesFrom_cycleCount]
  rfl

theorem runStages_cycleCount (s : State) (n : Word) : runStages { s with cycleCount := n } = runStages s := by
  unfold runStages
  rw [decodeStage_cycleCount]
  rfl

/-- Settles O16: with another count the same stages run, and the commit writes the same but for the count. -/
theorem cycleCountIsUnobservable : Obligations.CycleCountIsUnobservable := by
  intro s t n hstep
  obtain ⟨hs, h⟩ | ⟨e, hs, hr, h⟩ | ⟨c, m, x, hs, hr, hm, hx, h⟩ := step_cases s
  all_goals obtain rfl := Host.Outcome.next.inj (h.symm.trans hstep)
  · rw [BitVec.sub_self, BitVec.add_zero]
    exact step_of_not_running hs
  · rw [errorState_cycleCount, BitVec.sub_self, BitVec.add_zero]
    exact step_of_runStages_error hs ((runStages_cycleCount s n).trans hr)
  · have hcount : (s.committed c m x).cycleCount - s.cycleCount = 1 := by
      rw [State.committed, BitVec.add_comm, BitVec.add_sub_cancel]
    rw [hcount]
    exact step_of_writes hs ((runStages_cycleCount s n).trans hr) hm hx

/-! ## The invariant -/

/-- The memory that a cycle commits is canonical and inside [0, MEM_SIZE) if the memory it starts from is. -/
theorem nextMem_keeps {s : State} {c : Scratch} {m : Memory} (h : nextMem s c = .ok m) (hw : s.mem.wf = true)
    (hb : s.mem.below s.memSize = true) : m.wf = true ∧ m.below s.memSize = true := by
  unfold nextMem at h
  split at h
  · exact memWrite_keeps h hw hb
  · cases h; exact ⟨hw, hb⟩
  · cases h; exact ⟨hw, hb⟩

theorem errorState_inv {s : State} (e : CoreError) (h : s.Inv) : (s.errorState e).Inv where
  memCanonical := h.memCanonical
  memBelow := h.memBelow
  sizeMin := h.sizeMin
  sizeMax := h.sizeMax
  errIffErrored := by simp

theorem committed_inv {s : State} {c : Scratch} {m : Memory} (x : Regs) (h : s.Inv) (hs : s.status = .running)
    (hm : nextMem s c = .ok m) : (s.committed c m x).Inv where
  memCanonical := (nextMem_keeps hm h.memCanonical h.memBelow).1
  memBelow := (nextMem_keeps hm h.memCanonical h.memBelow).2
  sizeMin := h.sizeMin
  sizeMax := h.sizeMax
  errIffErrored := by
    have hnone : ¬ s.err.isSome = true := fun he => by simpa [hs] using h.errIffErrored.1 he
    exact iff_of_false hnone (nextStatus_ne_errored c hs)

/-- Settles O17: the error state keeps all but status and err, and a commit writes memory through a checked store. -/
theorem everyStepKeepsTheInvariant : Obligations.EveryStepKeepsTheInvariant := by
  intro s t hinv hstep
  obtain ⟨-, h⟩ | ⟨e, -, -, h⟩ | ⟨c, m, x, hs, -, hm, -, h⟩ := step_cases s
  all_goals obtain rfl := Host.Outcome.next.inj (h.symm.trans hstep)
  · exact hinv
  · exact errorState_inv e hinv
  · exact committed_inv x hinv hs hm

theorem resetOf_inv (n : Nat) (hmin : Config.minMemSize ≤ n) (hmax : n ≤ Config.maxMemSize) :
    (State.resetOf n).Inv where
  memCanonical := rfl
  memBelow := rfl
  sizeMin := hmin
  sizeMax := hmax
  errIffErrored := by simp

/-- Settles O19: the empty memory is canonical, and the size of `State.reset` is a legal one. -/
theorem resetHasTheInvariant : Obligations.ResetHasTheInvariant :=
  ⟨resetOf_inv, resetOf_inv _ (by decide) (by decide)⟩

/-- The loader writes only canonical memory inside [0, MEM_SIZE) (R710). -/
theorem loadImage_inv {s : State} (image : List (List Char)) (h : s.Inv) :
    { s with mem := (loadImage s.memSize s.mem image).1 }.Inv where
  memCanonical := (loadImage_keeps s.memSize image h.memCanonical h.memBelow).1
  memBelow := (loadImage_keeps s.memSize image h.memCanonical h.memBelow).2
  sizeMin := h.sizeMin
  sizeMax := h.sizeMax
  errIffErrored := h.errIffErrored

/-! ## The clock (R435) -/

theorem clockEdge_rst {i : Inputs} (s : State) (h : i.rst = true) :
    clockEdge i s = .next { s.assertReset with mem := (loadImage s.memSize s.assertReset.mem i.image).1 } := if_pos h

theorem clockEdge_run {i : Inputs} (s : State) (h : i.rst = false) (hr : i.run = true) : clockEdge i s = step s := by
  simp [clockEdge, h, hr]

theorem clockEdge_hold {i : Inputs} (s : State) (h : i.rst = false) (hr : i.run = false) : clockEdge i s = .next s := by
  simp [clockEdge, h, hr]

/-- Settles O18: an edge resets and loads, steps, or holds. -/
theorem everyClockEdgeKeepsTheInvariant : Obligations.EveryClockEdgeKeepsTheInvariant := by
  intro i s t hinv hedge
  cases hrst : i.rst with
  | true =>
    rw [clockEdge_rst s hrst] at hedge
    obtain rfl := Host.Outcome.next.inj hedge
    exact loadImage_inv i.image (resetOf_inv s.memSize hinv.sizeMin hinv.sizeMax)
  | false =>
    cases hrun : i.run with
    | true => exact everyStepKeepsTheInvariant s t hinv ((clockEdge_run s hrst hrun).symm.trans hedge)
    | false => exact Host.Outcome.next.inj ((clockEdge_hold s hrst hrun).symm.trans hedge) ▸ hinv

/-- Settles O20: with no image the edge leaves `State.resetOf`. -/
theorem resetLoadsEveryResetValue : Obligations.ResetLoadsEveryResetValue := by
  intro s run
  exact ⟨State.resetOf s.memSize, clockEdge_rst s rfl, rfl, fun _ => rfl, fun k hk => Vector.getElem_replicate hk, rfl,
    rfl, rfl, rfl, rfl⟩

theorem clockEdges_cons {i : Inputs} {s t : State} (rest : List Inputs) (h : clockEdge i s = .next t) :
    clockEdges (i :: rest) s = clockEdges rest t := by
  simp only [clockEdges, h]

/-- Settles O46, by induction on the edges: one with `run` is a step and one without is none. -/
theorem holdingTheClockChangesNothing : Obligations.HoldingTheClockChangesNothing := by
  intro edges s hrst
  induction edges generalizing s with
  | nil => rfl
  | cons i rest ih =>
    obtain ⟨hi, hrest⟩ := List.forall_mem_cons.1 hrst
    cases hrun : i.run with
    | true =>
      obtain ⟨t, hstep⟩ := everyStepAnswersANextState s
      rw [clockEdges_cons rest ((clockEdge_run s hi hrun).trans hstep), ih t hrest, List.countP_cons_of_pos hrun,
        run_succ_of_step _ hstep]
    | false =>
      rw [clockEdges_cons rest (clockEdge_hold s hi hrun), ih s hrest, List.countP_cons_of_neg (by simp [hrun])]

/-- Settles O45: a case for each status, and under Errored one for each kind of error. -/
theorem statusOutputCodes : Obligations.StatusOutputCodes := by
  intro s hinv
  cases hs : s.status with
  | running => simp [State.stat, hs]
  | halted => simp [State.stat, hs]
  | errored =>
    obtain ⟨e, he⟩ := Option.isSome_iff_exists.1 (hinv.errIffErrored.2 hs)
    cases e <;> simp [State.stat, hs, he]

end Sys2Proof.Machine
end

section
/-! The proofs about overflow and the conditions (R410, R412), the per-stage view (R620) and the loader (R710). -/

namespace Sys2Proof.Machine

/-! ## Overflow by value and by signs (R410) -/

/-- An integer is its own signed 64-bit residue exactly when it fits. -/
theorem bmod_ne_self_iff (x : Int) : x.bmod (2 ^ 64) ≠ x ↔ ¬ (-2 ^ 63 ≤ x ∧ x ≤ 2 ^ 63 - 1) := by
  rw [Ne, Int.bmod_eq_iff (by decide), Int.sub_self]
  omega

theorem aluFlags_add_overflow_iff_value (b a : Word) :
    (aluFlags .add b a).overflow = true ↔ (aluResult .add b a).toInt ≠ b.toInt + a.toInt := by
  rw [aluFlags_add_overflow_iff, ← bmod_ne_self_iff, aluResult, BitVec.toInt_add]

theorem aluFlags_sub_overflow_iff_value (b a : Word) :
    (aluFlags .sub b a).overflow = true ↔ (aluResult .sub b a).toInt ≠ b.toInt - a.toInt := by
  rw [aluFlags_sub_overflow_iff, ← bmod_ne_self_iff, aluResult, BitVec.toInt_sub]

/-- The exact-integer form is the library's signed overflow of a sum. -/
theorem aluFlags_add_overflow_iff_saddOverflow (b a : Word) :
    (aluFlags .add b a).overflow = true ↔ BitVec.saddOverflow b a = true := by
  rw [aluFlags_add_overflow_iff]
  simp only [BitVec.saddOverflow, Bool.or_eq_true, decide_eq_true_eq]
  omega

/-- The exact-integer form is the library's signed overflow of a difference. -/
theorem aluFlags_sub_overflow_iff_ssubOverflow (b a : Word) :
    (aluFlags .sub b a).overflow = true ↔ BitVec.ssubOverflow b a = true := by
  rw [aluFlags_sub_overflow_iff]
  simp only [BitVec.ssubOverflow, Bool.or_eq_true, decide_eq_true_eq]
  omega

theorem aluFlags_add_overflow_iff_msb (b a : Word) :
    (aluFlags .add b a).overflow = true ↔ b.msb = a.msb ∧ (b + a).msb ≠ b.msb := by
  rw [aluFlags_add_overflow_iff_saddOverflow, BitVec.saddOverflow_eq]
  simp

theorem aluFlags_sub_overflow_iff_msb (b a : Word) :
    (aluFlags .sub b a).overflow = true ↔ b.msb ≠ a.msb ∧ (b - a).msb ≠ b.msb := by
  rw [aluFlags_sub_overflow_iff_ssubOverflow, BitVec.ssubOverflow_eq]
  cases b.msb <;> cases a.msb <;> simp

theorem aluFlags_sign_iff (f : AluFun) (b a : Word) : (aluFlags f b a).sign = true ↔ (aluResult f b a).toInt < 0 := by
  have hsign : (aluFlags f b a).sign = (aluResult f b a).msb := (BitVec.msb_eq_getLsbD_last _).symm
  rw [hsign, BitVec.msb_eq_toInt, decide_eq_true_eq]

theorem aluFlags_zero_iff_toInt (f : AluFun) (b a : Word) :
    (aluFlags f b a).zero = true ↔ (aluResult f b a).toInt = 0 := by
  rw [aluFlags_zero_iff, ← BitVec.toInt_inj]; rfl

/-- Settles O22: the exact-integer form of O, against the library's overflow of signed words and against the residue. -/
theorem overflowBySignsAndByValue : Obligations.OverflowBySignsAndByValue :=
  ⟨aluFlags_add_overflow_iff_msb, aluFlags_sub_overflow_iff_msb, aluFlags_add_overflow_iff_value,
    aluFlags_sub_overflow_iff_value, fun f b a => ⟨aluFlags_sign_iff f b a, aluFlags_zero_iff_toInt f b a⟩⟩

/-! ## The stages between decode and pc update, one after another -/

/-- A stage by its name, as `middleStages` lists them. -/
abbrev NamedStage := Stage × (State → Scratch → Except CoreError Scratch)

/-- The record that stages leave, run in order until one raises. -/
def runFrom (s : State) (c : Scratch) : List NamedStage → Except CoreError Scratch
  | [] => .ok c
  | (_, f) :: rest =>
    match f s c with
    | .ok c' => runFrom s c' rest
    | .error e => .error e

theorem runFrom_cons_ok {s : State} {c c' : Scratch} {n : Stage} {f : State → Scratch → Except CoreError Scratch}
    (rest : List NamedStage) (h : f s c = .ok c') :
    runFrom s c ((n, f) :: rest) = runFrom s c' rest := by
  simp only [runFrom, h]

theorem runFrom_cons_error {s : State} {c : Scratch} {e : CoreError} {n : Stage}
    {f : State → Scratch → Except CoreError Scratch}
    (rest : List NamedStage) (h : f s c = .error e) :
    runFrom s c ((n, f) :: rest) = .error e := by
  simp only [runFrom, h]

theorem runStages_of_decodeStage_error {s : State} {e : CoreError} (h : decodeStage s = .error e) :
    runStages s = .error e := by
  simp only [runStages, h]

/-- After decode, the cycle is the run of the middle stages. -/
theorem runStages_of_decodeStage_ok {s : State} {c : Scratch} (h : decodeStage s = .ok c) :
    runStages s = runFrom s c middleStages := by
  cases h2 : operandReadStage s c with
  | error e => simp only [runStages, h, middleStages, runFrom, h2]
  | ok c2 =>
    cases h3 : executeStage s c2 with
    | error e => simp only [runStages, h, middleStages, runFrom, h2, h3]
    | ok c3 =>
      cases h4 : memoryStage s c3 with
      | error e => simp only [runStages, h, middleStages, runFrom, h2, h3, h4]
      | ok c4 =>
        cases h5 : writebackStage s c4 <;> simp only [runStages, h, middleStages, runFrom, h2, h3, h4, h5]

/-- The middle stages of a cycle that completes. -/
theorem runFrom_middleStages_ok {s : State} {c d : Scratch} (h : runFrom s c middleStages = .ok d) :
    ∃ c2 c3, operandReadStage s c = .ok c2 ∧ executeStage s c2 = .ok c3 ∧ memoryStage s c3 = .ok d := by
  simp only [middleStages, runFrom] at h
  split at h
  · next c2 h2 =>
    split at h
    · next c3 h3 =>
      split at h
      · next c4 h4 =>
        split at h
        · next c5 h5 =>
          obtain rfl := writebackStage_keeps h5
          obtain rfl := Except.ok.inj h
          exact ⟨c2, c3, h2, h3, h4⟩
        · cases h
      · cases h
    · cases h
  · cases h

/-! ## The condition of a cycle (R412) -/

/-- In the classes that take a condition, the function nibble's predicate of the flags, or the error (R413). -/
theorem condStage_of_some {s : State} {f : Fields} {k : Cond} (hf : f.icode = .cmov ∨ f.icode = .jump)
    (hk : Cond.ofCode f.ifun = some k) : condStage s f = .ok (s.flags.holds k) := by
  rcases hf with hf | hf <;> simp only [condStage, hf, hk]

theorem condStage_of_none {s : State} {f : Fields} (hf : f.icode = .cmov ∨ f.icode = .jump)
    (hk : Cond.ofCode f.ifun = none) : condStage s f = .error .invalidEncoding := by
  rcases hf with hf | hf <;> simp only [condStage, hf, hk]

theorem condStage_ok_eq {s : State} {f : Fields} {b : Bool} (h : condStage s f = .ok b)
    (hf : f.icode = .cmov ∨ f.icode = .jump) : some b = (Cond.ofCode f.ifun).map s.flags.holds := by
  cases hk : Cond.ofCode f.ifun with
  | none => rw [condStage_of_none hf hk] at h; cases h
  | some k => rw [condStage_of_some hf hk] at h; cases h; rfl

theorem executeStage_ok_cnd {s : State} {c d : Scratch} (h : executeStage s c = .ok d) :
    condStage s d.ins = .ok d.cnd := by
  unfold executeStage at h
  split at h
  · next hcnd => cases h; exact hcnd
  · cases h

theorem memoryStage_keeps_cnd {s : State} {c d : Scratch} (h : memoryStage s c = .ok d) : d.cnd = c.cnd := by
  unfold memoryStage at h
  split at h
  · cases h; rfl
  all_goals split at h <;> cases h; rfl

/-- The record that a cycle ends with holds the condition that execute found. -/
theorem condStage_of_runStages_ok {s : State} {c : Scratch} (h : runStages s = .ok c) :
    condStage s c.ins = .ok c.cnd := by
  cases hd : decodeStage s with
  | error e => rw [runStages_of_decodeStage_error hd] at h; cases h
  | ok c1 =>
    rw [runStages_of_decodeStage_ok hd] at h
    obtain ⟨c2, c3, -, hexec, hmem⟩ := runFrom_middleStages_ok h
    rw [(memoryStage_keeps hmem).1, memoryStage_keeps_cnd hmem]
    exact executeStage_ok_cnd hexec

theorem decode_pair_of_undefined_cond {f : Nibble} (h : 7 ≤ f.val) (rest : List Byte) :
    decode (pair IClass.cmov.code f :: rest) = .error .invalidEncoding ∧
      decode (pair IClass.jump.code f :: rest) = .error .invalidEncoding := by
  have hnone : (Cond.ofCode f).isSome = false := by rw [(Cond.ofCode_eq_none f).2 h]; rfl
  exact ⟨(decode_pair_eq_invalidEncoding_iff .cmov f rest).2 hnone,
    (decode_pair_eq_invalidEncoding_iff .jump f rest).2 hnone⟩

/-- Settles O23: the table's rows, the codes without a row, and the flags that execute reads. -/
theorem conditionsFollowTheTable : Obligations.ConditionsFollowTheTable :=
  ⟨fun _ _ _ => ⟨rfl, rfl, rfl, rfl, rfl, rfl, rfl⟩,
    fun f rest h => ⟨(Cond.ofCode_eq_none f).2 h, decode_pair_of_undefined_cond h rest⟩,
    fun _ _ h hc => condStage_ok_eq (condStage_of_runStages_ok h) hc⟩

/-! ## The per-stage view (R620) -/

/-- Where the stages complete, the view shows each of them in order and then the commit. -/
theorem viewsFrom_of_runFrom_ok {s t : State} {d : Scratch} (hcommit : commit s d = .next t) (c : Scratch)
    (stages : List NamedStage) (h : runFrom s c stages = .ok d) :
    ∃ vs, viewsFrom s c stages = vs ++ [{ stage := .pcUpdate, state := t, scratch := some d }] ∧
      (∀ u ∈ vs, u.state = s) ∧ vs.map StageView.stage = stages.map Prod.fst := by
  induction stages generalizing c with
  | nil =>
    obtain rfl := Except.ok.inj h
    exact ⟨[], pcUpdateView_of_commit hcommit, by simp, rfl⟩
  | cons p rest ih =>
    obtain ⟨n, f⟩ := p
    cases hf : f s c with
    | error e => rw [runFrom_cons_error rest hf] at h; cases h
    | ok c' =>
      rw [runFrom_cons_ok rest hf] at h
      obtain ⟨vs, hviews, hstate, hstages⟩ := ih c' h
      refine ⟨{ stage := n, state := s, scratch := some c' } :: vs, ?_, List.forall_mem_cons.2 ⟨rfl, hstate⟩, ?_⟩
      · rw [viewsFrom_ok rest hf, hviews]; rfl
      · rw [List.map_cons, hstages]; rfl

/-- Where a stage raises, the view shows the stages before it in order and it last. -/
theorem viewsFrom_of_runFrom_error {s : State} {e : CoreError} (c : Scratch)
    (stages : List NamedStage) (h : runFrom s c stages = .error e) :
    ∃ vs n r, viewsFrom s c stages = vs ++ [raisedView s n r e] ∧ (∀ u ∈ vs, u.state = s) ∧
      vs.map StageView.stage ++ [n] <+: stages.map Prod.fst := by
  induction stages generalizing c with
  | nil => cases h
  | cons p rest ih =>
    obtain ⟨n, f⟩ := p
    cases hf : f s c with
    | error e' =>
      rw [runFrom_cons_error rest hf] at h
      obtain rfl := Except.error.inj h
      exact ⟨[], n, some c, viewsFrom_error rest hf, by simp, by simp⟩
    | ok c' =>
      rw [runFrom_cons_ok rest hf] at h
      obtain ⟨vs, m, r, hviews, hstate, hstages⟩ := ih c' h
      refine ⟨{ stage := n, state := s, scratch := some c' } :: vs, m, r, ?_, List.forall_mem_cons.2 ⟨rfl, hstate⟩, ?_⟩
      · rw [viewsFrom_ok rest hf, hviews]; rfl
      · simpa using hstages

theorem stageTrace_of_decodeStage_ok {s : State} {c : Scratch} (hs : s.status = .running) (h : decodeStage s = .ok c) :
    stageTrace s = { stage := .decode, state := s, scratch := some c } :: viewsFrom s c middleStages := by
  rw [stageTrace_running hs, h]

theorem stageTrace_of_decodeStage_error {s : State} {e : CoreError} (hs : s.status = .running)
    (h : decodeStage s = .error e) : stageTrace s = [raisedView s .decode none e] := by
  rw [stageTrace_running hs, h]

theorem stageTrace_of_not_running {s : State} (h : s.status ≠ .running) : stageTrace s = [] := by
  cases hs : s.status with
  | running => exact absurd hs h
  | halted => simp only [stageTrace, hs]
  | errored => simp only [stageTrace, hs]

/-- The view of a cycle that completes: the five stages before pc update from the start state, and the commit. -/
theorem stageTrace_of_runStages_ok {s t : State} {d : Scratch} (hs : s.status = .running) (h : runStages s = .ok d)
    (hcommit : commit s d = .next t) :
    ∃ vs, stageTrace s = vs ++ [{ stage := .pcUpdate, state := t, scratch := some d }] ∧ (∀ u ∈ vs, u.state = s) ∧
      vs.map StageView.stage = [.decode, .operandRead, .execute, .memory, .writeback] := by
  cases hd : decodeStage s with
  | error e => rw [runStages_of_decodeStage_error hd] at h; cases h
  | ok c =>
    rw [runStages_of_decodeStage_ok hd] at h
    obtain ⟨vs, hviews, hstate, hstages⟩ := viewsFrom_of_runFrom_ok hcommit c _ h
    refine ⟨{ stage := .decode, state := s, scratch := some c } :: vs, ?_, List.forall_mem_cons.2 ⟨rfl, hstate⟩, ?_⟩
    · rw [stageTrace_of_decodeStage_ok hs hd, hviews]; rfl
    · rw [List.map_cons, hstages]; rfl

/-- The view of a cycle that raises: stages from the start state, in order, and last the one that raised. -/
theorem stageTrace_of_runStages_error {s : State} {e : CoreError} (hs : s.status = .running)
    (h : runStages s = .error e) :
    ∃ vs n r, stageTrace s = vs ++ [raisedView s n r e] ∧ (∀ u ∈ vs, u.state = s) ∧
      vs.map StageView.stage ++ [n] <+: [.decode, .operandRead, .execute, .memory, .writeback] := by
  cases hd : decodeStage s with
  | error e' =>
    rw [runStages_of_decodeStage_error hd] at h
    obtain rfl := Except.error.inj h
    exact ⟨[], .decode, none, stageTrace_of_decodeStage_error hs hd, by simp, by simp⟩
  | ok c =>
    rw [runStages_of_decodeStage_ok hd] at h
    obtain ⟨vs, n, r, hviews, hstate, hstages⟩ := viewsFrom_of_runFrom_error c _ h
    refine ⟨{ stage := .decode, state := s, scratch := some c } :: vs, n, r, ?_,
      List.forall_mem_cons.2 ⟨rfl, hstate⟩, ?_⟩
    · rw [stageTrace_of_decodeStage_ok hs hd, hviews]; rfl
    · exact (List.prefix_cons_inj Stage.decode).2 hstages

/-- Settles O48: the view of the cycle that completes, that of the cycle that raises, and none without a cycle. -/
theorem perStageViewLeadsToTheStep : Obligations.PerStageViewLeadsToTheStep := by
  intro s
  refine ⟨fun hs => ?_, stageTrace_of_not_running⟩
  cases hr : runStages s with
  | ok d =>
    obtain ⟨m, x, hcommit⟩ := commit_of_runStages_ok hr
    obtain ⟨vs, htrace, hstate, hstages⟩ := stageTrace_of_runStages_ok hs hr hcommit
    have hlen : vs.length = 5 := by simpa using congrArg List.length hstages
    rw [htrace]
    refine ⟨_, List.getLast?_concat, ?_, by simpa using hstate, by simp [hstages], ?_, by rintro _ ⟨⟩⟩
    · rw [step_running_eq_stages hs, hr, orRaise_ok, hcommit]
    · rintro _ ⟨⟩
      simp [hlen]
  | error e =>
    obtain ⟨vs, n, r, htrace, hstate, hstages⟩ := stageTrace_of_runStages_error hs hr
    have hmem : n ∈ [Stage.decode, .operandRead, .execute, .memory, .writeback] := hstages.subset (by simp)
    have hne : n ≠ .pcUpdate := by rintro rfl; revert hmem; decide
    rw [htrace]
    refine ⟨_, List.getLast?_concat, step_of_runStages_error hs hr, by simpa using hstate, ?_, by rintro _ ⟨⟩, ?_⟩
    · rw [List.map_append]
      exact hstages.trans (List.prefix_append _ [Stage.pcUpdate])
    · rintro _ ⟨⟩
      exact ⟨hne, rfl⟩

/-- Stages that keep the instruction and valP show records that hold them. -/
theorem scratch_of_mem_viewsFrom {s : State} (c : Scratch)
    (stages : List NamedStage)
    (hkeeps : ∀ p ∈ stages, ∀ c d, p.2 s c = .ok d → d.ins = c.ins ∧ d.valP = c.valP) {u : StageView} {d : Scratch}
    (hu : u ∈ viewsFrom s c stages) (hd : u.scratch = some d) : d.ins = c.ins ∧ d.valP = c.valP := by
  induction stages generalizing c with
  | nil =>
    simp only [viewsFrom_nil, pcUpdateView] at hu
    split at hu
    · obtain rfl := List.mem_singleton.1 hu
      obtain rfl := Option.some.inj hd
      exact ⟨rfl, rfl⟩
    · cases hu
    · cases hu
  | cons p rest ih =>
    obtain ⟨n, f⟩ := p
    obtain ⟨hkeep, hkeeps⟩ := List.forall_mem_cons.1 hkeeps
    cases hf : f s c with
    | error e =>
      rw [viewsFrom_error rest hf] at hu
      obtain rfl := List.mem_singleton.1 hu
      obtain rfl := Option.some.inj hd
      exact ⟨rfl, rfl⟩
    | ok c' =>
      obtain ⟨hins, hvalP⟩ := hkeep c c' hf
      rw [viewsFrom_ok rest hf] at hu
      rcases List.mem_cons.1 hu with rfl | hu
      · obtain rfl := Option.some.inj hd
        exact ⟨hins, hvalP⟩
      · obtain ⟨hins', hvalP'⟩ := ih c' hkeeps hu
        exact ⟨hins'.trans hins, hvalP'.trans hvalP⟩

theorem middleStages_keep {s : State} :
    ∀ p ∈ middleStages, ∀ c d, p.2 s c = .ok d → d.ins = c.ins ∧ d.valP = c.valP := by
  have hwriteback {c d : Scratch} (h : writebackStage s c = .ok d) : d.ins = c.ins ∧ d.valP = c.valP := by
    rw [writebackStage_keeps h]; exact ⟨rfl, rfl⟩
  simp only [middleStages, List.forall_mem_cons]
  exact ⟨fun _ _ => operandReadStage_keeps, fun _ _ => executeStage_keeps, fun _ _ => memoryStage_keeps,
    fun _ _ => hwriteback, by simp⟩

/-- Settles O49: decode's own record, and those of the stages after it, which keep its instruction and valP. -/
theorem shownRecordsHoldTheDecodedInstruction : Obligations.ShownRecordsHoldTheDecodedInstruction := by
  intro s u c hu hc
  by_cases hs : s.status = .running
  · cases hd : decodeStage s with
    | error e =>
      rw [stageTrace_of_decodeStage_error hs hd] at hu
      obtain rfl := List.mem_singleton.1 hu
      cases hc
    | ok c1 =>
      obtain ⟨hfields, hlen, hvalP⟩ := decodeStage_ok hd
      have hkept : c.ins = c1.ins ∧ c.valP = c1.valP := by
        rw [stageTrace_of_decodeStage_ok hs hd] at hu
        rcases List.mem_cons.1 hu with rfl | hu
        · obtain rfl := Option.some.inj hc
          exact ⟨rfl, rfl⟩
        · exact scratch_of_mem_viewsFrom c1 middleStages middleStages_keep hu hc
      rw [hkept.1, hkept.2]
      exact ⟨hfields, hlen, hvalP⟩
  · rw [stageTrace_of_not_running hs] at hu; cases hu

/-- Fields that stand for an instruction have a condition, or need none: execute raises nothing (R311). -/
theorem condStage_of_toInstr {s : State} {f : Fields} {i : Instr} (h : f.toInstr = .ok i) :
    ∃ b, condStage s f = .ok b := by
  obtain ⟨icode, ifun, rA, rB, valC, len⟩ := f
  cases icode with
  | halt | nop | irmov | rmmov | mrmov | op | call | ret | push | pop => exact ⟨false, rfl⟩
  | cmov =>
    obtain ⟨c, hc, -⟩ := toInstr_cmov_ok h
    exact ⟨_, condStage_of_some (.inl rfl) hc⟩
  | jump =>
    obtain ⟨c, hc, -⟩ := toInstr_jump_ok h
    exact ⟨_, condStage_of_some (.inr rfl) hc⟩

theorem executeStage_completes {s : State} {c1 c2 : Scratch} (hd : decodeStage s = .ok c1)
    (ho : operandReadStage s c1 = .ok c2) : ∃ c3, executeStage s c2 = .ok c3 := by
  obtain ⟨i, hi⟩ := decodeFields_toInstr (decodeStage_ok hd).1
  rw [← (operandReadStage_keeps ho).1] at hi
  obtain ⟨b, hb⟩ := condStage_of_toInstr (s := s) hi
  exact ⟨{ c2 with valE := execValE c2 b, cnd := b }, by simp only [executeStage, hb]⟩

/-- Settles O50: the view stage by stage, as far as the one that raises. -/
theorem theRaisingStageIsShownLast : Obligations.TheRaisingStageIsShownLast := by
  intro s hs
  refine ⟨fun e hd => ?_, fun c1 e hd ho => ?_, fun c1 c2 hd ho => executeStage_completes hd ho,
    fun c1 c2 c3 e hd ho hx hm => ?_, fun c1 c2 c3 c4 e hd ho hx hm hw => ?_⟩
  · rw [stageTrace_of_decodeStage_error hs hd]; rfl
  · rw [stageTrace_of_decodeStage_ok hs hd, middleStages, viewsFrom_error _ ho]; rfl
  · rw [stageTrace_of_decodeStage_ok hs hd, middleStages, viewsFrom_ok _ ho, viewsFrom_ok _ hx, viewsFrom_error _ hm]
    rfl
  · rw [stageTrace_of_decodeStage_ok hs hd, middleStages, viewsFrom_ok _ ho, viewsFrom_ok _ hx, viewsFrom_ok _ hm,
      viewsFrom_error _ hw]
    rfl

/-! ## The loader (R710) -/

@[simp] theorem hexDigit_hexChar (d : Nibble) : hexDigit (hexChar d) = some d.val := by
  revert d; decide

/-- A byte's two digits load the byte, if its address lies in memory. -/
theorem loadHexBytes_hexText_cons (n a : Nat) (m : Memory) (b : Byte) (bs : List Byte) :
    loadHexBytes n m a (hexText (b :: bs)) =
      if a < n then loadHexBytes n (m.set a b) (a + 1) (hexText bs) else (m, .malformedInput) := by
  have hbyte : BitVec.ofNat 8 (16 * (hiNibble b).val + (loNibble b).val) = b := pair_nibbles b
  simp only [hexText, loadHexBytes, hexDigit_hexChar, hbyte]

theorem loadHexBytes_hexText_memory (n a : Nat) (m : Memory) (bs : List Byte) :
    (loadHexBytes n m a (hexText bs)).1 = m.setBytes a (bs.take (n - a)) := by
  induction bs generalizing m a with
  | nil => rw [List.take_nil]; rfl
  | cons b bs ih =>
    rw [loadHexBytes_hexText_cons]
    split
    · next h =>
      rw [ih, show n - a = (n - (a + 1)) + 1 by omega, List.take_succ_cons]; rfl
    · next h =>
      rw [show n - a = 0 by omega]; rfl

theorem loadHexBytes_hexText_report (n a : Nat) (m : Memory) (bs : List Byte) :
    (loadHexBytes n m a (hexText bs)).2 = if bs = [] ∨ a + bs.length ≤ n then .loaded else .malformedInput := by
  induction bs generalizing m a with
  | nil => simp [hexText, loadHexBytes]
  | cons b bs ih =>
    rw [loadHexBytes_hexText_cons]
    split
    · next h =>
      rw [ih]
      refine if_congr ?_ rfl rfl
      simp only [← List.length_eq_zero_iff, List.length_cons]
      omega
    · next h =>
      refine (if_neg ?_).symm
      simp only [← List.length_eq_zero_iff, List.length_cons]
      omega

/-- Settles O47, by induction on the bytes for the memory and for the report. -/
theorem loaderWritesTheBytes : Obligations.LoaderWritesTheBytes := by
  intro n a m bs
  have hreport := loadHexBytes_hexText_report n a m bs
  refine ⟨loadHexBytes_hexText_memory n a m bs, ?_, ?_⟩
  · rw [hreport, ← not_le, ← not_or]
    split <;> simp_all
  · rw [hreport]
    split <;> simp_all

end Sys2Proof.Machine
end

section
/-! The proofs per instruction (41_halt_nop.md to 45_stack.md), about memory (R203 to R206), and the frames (R434). -/

namespace Sys2Proof.Machine

/-! ## Word accesses (R205, R206) -/

theorem wordInBounds_iff_wordLegal (s : State) (a : Int) : wordInBounds s.memSize a = true ↔ s.wordLegal a :=
  wordInBounds_iff s.memSize a

theorem memRead_of_wordLegal {s : State} {a : Int} (h : s.wordLegal a) : memRead s a = .ok (s.wordAt a.toNat) :=
  if_pos ((wordInBounds_iff_wordLegal s a).2 h)

theorem memRead_of_not_wordLegal {s : State} {a : Int} (h : ¬ s.wordLegal a) :
    memRead s a = .error .addressOutOfBounds :=
  if_neg (mt (wordInBounds_iff_wordLegal s a).1 h)

theorem memWrite_of_wordLegal {s : State} {a : Int} (v : Word) (h : s.wordLegal a) :
    memWrite s a v = .ok (s.mem.setBytes a.toNat (leBytes v)) :=
  memWrite_inBounds v h.1 h.2

theorem memWrite_of_not_wordLegal {s : State} {a : Int} (v : Word) (h : ¬ s.wordLegal a) :
    memWrite s a v = .error .addressOutOfBounds :=
  if_neg (mt (wordInBounds_iff_wordLegal s a).1 h)

theorem wordAt_eq_getWord (s : State) (a : Nat) : s.wordAt a = s.mem.getWord a := rfl

theorem leBytes_getElem (v : Word) (k : Nat) (hk : k < (leBytes v).length) : (leBytes v)[k] = byteOf v k := by
  match k, hk with
  | 0, _ | 1, _ | 2, _ | 3, _ | 4, _ | 5, _ | 6, _ | 7, _ => rfl

/-- A stored word's bytes, least significant first. -/
theorem get_setBytes_leBytes {m : Memory} (h : m.wf = true) (a : Nat) (v : Word) {k : Nat} (hk : k < 8) :
    (m.setBytes a (leBytes v)).get (a + k) = byteOf v k :=
  (Memory.get_setBytes_inside (leBytes v) h a k hk).trans (leBytes_getElem v k hk)

/-- A stored word leaves every byte outside its eight. -/
theorem get_setBytes_leBytes_outside (m : Memory) (a : Nat) (v : Word) {x : Nat} (hx : x < a ∨ a + 8 ≤ x) :
    (m.setBytes a (leBytes v)).get x = m.get x :=
  Memory.get_setBytes_outside (leBytes v) m a x hx

/-- Settles O41: the bounds check of an access, and the laws of the eight bytes it writes. -/
theorem storeThenLoadGivesTheWord : Obligations.StoreThenLoadGivesTheWord := by
  refine ⟨fun s a v h => ⟨memRead_of_not_wordLegal h, memWrite_of_not_wordLegal v h⟩,
    fun s a h => memRead_of_wordLegal h, fun s a v hwf h => ⟨_, memWrite_of_wordLegal v h, ?_, ?_, ?_⟩⟩
  · have hload := memRead_of_wordLegal (s := { s with mem := s.mem.setBytes a.toNat (leBytes v) }) h
    rw [hload, wordAt_eq_getWord, Memory.getWord_setBytes hwf]
  · exact fun i hi => get_setBytes_leBytes hwf a.toNat v hi
  · exact fun x hx => get_setBytes_leBytes_outside s.mem a.toNat v hx

/-! ## Register fields that name a register, and 15 -/

/-- 15 names no register (R102). -/
theorem ne_fifteen_of_named {r : RegIdx} (h : r.val < numRegs) : r ≠ 15 := by
  rintro rfl
  exact absurd h (by decide)

/-- A rule that completes only with both fields named fails where one of them is 15. -/
theorem failed_of_fifteen {o : StepOutcome} {s : State} {rA rB : RegIdx}
    (hcases : o = failed s .addressOutOfBounds ∨ rA.val < numRegs ∧ rB.val < numRegs) (h15 : rA = 15 ∨ rB = 15) :
    o = failed s .addressOutOfBounds := by
  obtain ho | ⟨hA, hB⟩ := hcases
  · exact ho
  · rcases h15 with h | h
    · exact absurd h (ne_fifteen_of_named hA)
    · exact absurd h (ne_fifteen_of_named hB)

theorem moveIf_failed_or_named (c : Cond) (rA rB : RegIdx) (s : State) :
    moveIf c rA rB s = failed s .addressOutOfBounds ∨ rA.val < numRegs ∧ rB.val < numRegs :=
  (moveIf_cases c rA rB s).imp_right fun ⟨hA, hB, _⟩ => ⟨hA, hB⟩

theorem aluOp_failed_or_named (f : AluFun) (rA rB : RegIdx) (s : State) :
    aluOp f rA rB s = failed s .addressOutOfBounds ∨ rA.val < numRegs ∧ rB.val < numRegs :=
  (aluOp_cases f rA rB s).imp_right fun ⟨hA, hB, _⟩ => ⟨hA, hB⟩

theorem execRmmovq_failed_or_named (rA rB : RegIdx) (d : Word) (s : State) :
    execRmmovq rA rB d s = failed s .addressOutOfBounds ∨ rA.val < numRegs ∧ rB.val < numRegs :=
  (execRmmovq_cases rA rB d s).imp_right fun ⟨hA, hB, _⟩ => ⟨hA, hB⟩

theorem execMrmovq_failed_or_named (rA rB : RegIdx) (d : Word) (s : State) :
    execMrmovq rA rB d s = failed s .addressOutOfBounds ∨ rA.val < numRegs ∧ rB.val < numRegs :=
  (execMrmovq_cases rA rB d s).imp_right fun ⟨hA, hB, _⟩ => ⟨hA, hB⟩

theorem execPushq_failed_or_named (rA : RegIdx) (s : State) :
    execPushq rA s = failed s .addressOutOfBounds ∨ rA.val < numRegs :=
  (execPushq_cases rA s).imp_right fun ⟨hA, _⟩ => hA

theorem execPopq_failed_or_named (rA : RegIdx) (s : State) :
    execPopq rA s = failed s .addressOutOfBounds ∨ rA.val < numRegs :=
  (execPopq_cases rA s).imp_right fun ⟨hA, _⟩ => hA

theorem named_iff (r : RegIdx) : RegIdx.named r = true ↔ r.val < numRegs := decide_eq_true_iff

theorem named_and_iff (rA rB : RegIdx) :
    (RegIdx.named rA && RegIdx.named rB) = true ↔ rA.val < numRegs ∧ rB.val < numRegs := by
  rw [Bool.and_eq_true, named_iff, named_iff]

/-! ## halt and nop -/

/-- Settles O25: halt's one rule, and the class 0 decodes to it. -/
theorem haltStopsTheMachine : Obligations.HaltStopsTheMachine :=
  ⟨decode_pair_halt, fun _ => rfl⟩

/-- In a legal machine, the address after a byte of memory is the exact sum (R201). -/
theorem toInt_add_one {w : Word} {n : Nat} (h : w.toInt + 1 = n) (hn : n ≤ Config.maxMemSize) :
    (w + 1).toInt = n := by
  have hone : (1 : Word).toInt = 1 := by decide
  simp only [Config.maxMemSize] at hn
  rw [BitVec.toInt_add, hone, h]
  exact Int.bmod_eq_of_le (by omega) (by omega)

/-- Settles O26: nop's one rule; past the last byte of memory the pc is no longer valid. -/
theorem nopOnlyAdvances : Obligations.NopOnlyAdvances := by
  refine ⟨decode_pair_nop, fun _ => rfl, step_of_not_pcValid, fun s f hinv hbytes hlast => ?_⟩
  have hstep : step s = exec .nop s := step_of_runsBytes (i := .nop) (r := 0) hbytes
  have hpc : (s.pc + 1).toInt = s.memSize := toInt_add_one hlast hinv.sizeMax
  refine ⟨_, hstep, hpc, step_of_not_pcValid _ hbytes.1 fun hvalid => ?_⟩
  exact absurd hvalid.2 (not_lt.2 hpc.ge)

/-! ## Conditional moves and ALU operations -/

theorem moveIf_named (c : Cond) (rA rB : RegIdx) (s : State) (hA : rA.val < numRegs) (hB : rB.val < numRegs) :
    moveIf c rA rB s =
      .next ({ s with regs := s.regs.set rB.val (if s.flags.holds c then s.regs[rA.val] else s.regs[rB.val]) }.retire
        (valP s 2)) := by
  simp only [moveIf, readReg_named, writeReg_named, hA, hB, orRaise_ok]

/-- A class of two bytes whose function nibble is taken fails without its second byte. -/
theorem decode_singleton_pair {c : IClass} {f : Nibble} (hf : c.takesFun f = true) (hlen : 2 ≤ c.length) :
    decode [pair c.code f] = .error .addressOutOfBounds :=
  (decode_pair_eq_addressOutOfBounds_iff c f []).2 ⟨hf, hlen⟩

/-- Settles O27: the seven moves are `moveIf` at their conditions, and their bytes those of the class cmov. -/
theorem conditionalMovesSelect : Obligations.ConditionalMovesSelect := by
  refine ⟨fun rA rB rest => ⟨decode_pair_cmov .always rA rB rest, decode_pair_cmov .le rA rB rest,
      decode_pair_cmov .l rA rB rest, decode_pair_cmov .e rA rB rest, decode_pair_cmov .ne rA rB rest,
      decode_pair_cmov .ge rA rB rest, decode_pair_cmov .g rA rB rest⟩,
    fun rA rB hA hB s => ⟨moveIf_named .always rA rB s hA hB, moveIf_named .le rA rB s hA hB,
      moveIf_named .l rA rB s hA hB, moveIf_named .e rA rB s hA hB, moveIf_named .ne rA rB s hA hB,
      moveIf_named .ge rA rB s hA hB, moveIf_named .g rA rB s hA hB⟩,
    fun c rA rB s h15 => ?_, fun f rest hf => (decode_pair_of_undefined_cond hf rest).1, fun f hf => ?_,
    step_of_not_pcValid⟩
  · rw [exec_cmov]
    exact failed_of_fifteen (moveIf_failed_or_named c rA rB s) h15
  · exact decode_singleton_pair (c := .cmov) (by simp [IClass.takesFun, hf]) (by decide)

/-- A sum or difference overflows where it lies past either end of the signed range. -/
theorem not_fitsWord_eq (x : Int) : (!fitsWord x) = decide (x < -2 ^ 63 ∨ 2 ^ 63 - 1 < x) := by
  rw [fitsWord, Bool.not_and, ← decide_not, ← decide_not, ← Bool.decide_or]
  simp only [not_le]

/-- Settles O31: the four operations are `aluOp`, and their bytes those of the class op. -/
theorem aluOperationsCompute : Obligations.AluOperationsCompute := by
  refine ⟨fun rA rB rest => ⟨decode_pair_op .add rA rB rest, decode_pair_op .sub rA rB rest,
      decode_pair_op .and rA rB rest, decode_pair_op .xor rA rB rest⟩,
    fun rA rB hA hB s => ⟨?_, ?_, aluOp_named .and rA rB s hA hB, aluOp_named .xor rA rB s hA hB⟩,
    fun f rA rB s h15 => ?_, fun f rest hf => ?_, fun f hf => ?_, step_of_not_pcValid⟩
  · rw [← not_fitsWord_eq]; exact aluOp_named .add rA rB s hA hB
  · rw [← not_fitsWord_eq]; exact aluOp_named .sub rA rB s hA hB
  · rw [exec_op]
    exact failed_of_fifteen (aluOp_failed_or_named f rA rB s) h15
  · exact (decode_pair_eq_invalidEncoding_iff .op f rest).2 (by simp [IClass.takesFun, hf])
  · exact decode_singleton_pair (c := .op) (by simp [IClass.takesFun, hf]) (by decide)

/-! ## Jumps -/

/-- The class jump fails with any of its nine bytes missing. -/
theorem decode_take_jump {f : Nibble} (dest : Word) {k : Nat} (hf : f.val < 7) (hk : k < 9) :
    decode ((pair IClass.jump.code f :: leBytes dest).take k) = .error .addressOutOfBounds := by
  obtain ⟨c, rfl⟩ := exists_cond_code (f := f) (by simp [hf])
  exact decode_take_of_lt_length (by simpa using decode_pair_jump c dest []) (by cases c <;> exact hk)

/-- Settles O32: the seven jumps are `jumpIf` at their conditions, and their bytes those of the class jump. -/
theorem jumpsSetThePc : Obligations.JumpsSetThePc :=
  ⟨fun dest rest => ⟨decode_pair_jump .always dest rest, decode_pair_jump .le dest rest,
      decode_pair_jump .l dest rest, decode_pair_jump .e dest rest, decode_pair_jump .ne dest rest,
      decode_pair_jump .ge dest rest, decode_pair_jump .g dest rest⟩,
    fun _ _ => ⟨rfl, rfl, rfl, rfl, rfl, rfl, rfl⟩,
    fun _ rest hf => (decode_pair_of_undefined_cond hf rest).2, fun _ dest _ hf hk => decode_take_jump dest hf hk⟩

/-! ## Loads and stores -/

/-- Settles O29: the ten bytes decode to rmmovq, so fewer are too few; executing is the access at `dispAddr`. -/
theorem rmmovqStoresAWord : Obligations.RmmovqStoresAWord := by
  refine ⟨decode_pair_rmmovq, fun rA rB hA hB d s h => ?_, fun rA rB hA hB d s h => ?_, fun rA rB d s h15 =>
    failed_of_fifteen (execRmmovq_failed_or_named rA rB d s) h15, fun f rA rB d k hk => ?_⟩
  · have hstore := memWrite_of_wordLegal s.regs[rA.val] h
    simp only [exec, execRmmovq, readReg_named, hA, hB, orRaise_ok, dispAddr, hstore]
    rfl
  · have hstore := memWrite_of_not_wordLegal s.regs[rA.val] h
    simp only [exec, execRmmovq, readReg_named, hA, hB, orRaise_ok, dispAddr, hstore]
    rfl
  · have hten := List.append_nil (leBytes d) ▸ decode_pair_rmmovq f rA rB d []
    exact decode_take_of_lt_length hten hk

/-- Settles O30: the ten bytes decode to mrmovq, so fewer are too few; executing is the access at `dispAddr`. -/
theorem mrmovqLoadsAWord : Obligations.MrmovqLoadsAWord := by
  refine ⟨decode_pair_mrmovq, fun rA rB hA hB d s h => ?_, fun rA rB hB d s h => ?_, fun rA rB d s h15 =>
    failed_of_fifteen (execMrmovq_failed_or_named rA rB d s) h15, fun f rA rB d k hk => ?_⟩
  · have hload := memRead_of_wordLegal h
    simp only [exec, execMrmovq, readReg_named, writeReg_named, hA, hB, orRaise_ok, dispAddr, hload]
    rfl
  · have hload := memRead_of_not_wordLegal h
    simp only [exec, execMrmovq, readReg_named, hB, orRaise_ok, dispAddr, hload]
    rfl
  · have hten := List.append_nil (leBytes d) ▸ decode_pair_mrmovq f rA rB d []
    exact decode_take_of_lt_length hten hk

/-! ## The stack -/

theorem readReg_SP (s : State) : readReg s SP = .ok s.sp := readReg_named s SP SP_named

theorem writeReg_SP (x : Regs) (v : Word) : writeReg x SP v = .ok (x.set SP.val v SP_named) :=
  writeReg_named x SP v SP_named

/-- The new slot lies in memory exactly when 8 ≤ x[SP] ≤ MEM_SIZE. -/
theorem wordLegal_pushAddr_iff (s : State) : s.wordLegal (pushAddr s.sp) ↔ 8 ≤ s.sp.toInt ∧ s.sp.toInt ≤ s.memSize := by
  simp only [State.wordLegal, pushAddr]; omega

theorem execRet_of_wordLegal {s : State} (h : s.wordLegal s.sp.toInt) :
    execRet s = .next ({ s with regs := s.regs.set SP.val (s.sp + stackDelta) SP_named }.retire
      (s.wordAt s.sp.toInt.toNat)) := by
  simp only [execRet, readReg_SP, writeReg_SP, orRaise_ok, popAddr, memRead_of_wordLegal h]

theorem execRet_of_not_wordLegal {s : State} (h : ¬ s.wordLegal s.sp.toInt) :
    execRet s = failed s .addressOutOfBounds := by
  simp only [execRet, readReg_SP, orRaise_ok, popAddr, memRead_of_not_wordLegal h, orRaise_error]; rfl

/-- In a legal machine, x[SP] + 8 after a pop from memory does not wrap (R201). -/
theorem toInt_add_eight {s : State} (hinv : s.Inv) (h : s.wordLegal s.sp.toInt) : (s.sp + 8).toInt = s.sp.toInt + 8 := by
  obtain ⟨h0, h8⟩ := h
  have hsize := hinv.sizeMax
  have height : (8 : Word).toInt = 8 := by decide
  simp only [Config.maxMemSize] at hsize
  rw [BitVec.toInt_add, height]
  exact Int.bmod_eq_of_le (by omega) (by omega)

/-- Settles O35: ret is a checked load at the old stack pointer. -/
theorem retPopsTheReturnAddress : Obligations.RetPopsTheReturnAddress :=
  ⟨decode_pair_ret, fun _ h => execRet_of_wordLegal h, fun _ h => execRet_of_not_wordLegal h,
    fun _ hinv h => toInt_add_eight hinv h⟩

theorem execPushq_of_wordLegal {rA : RegIdx} {s : State} (hA : rA.val < numRegs) (h : s.wordLegal (pushAddr s.sp)) :
    execPushq rA s = .next ({ s with
      mem := s.mem.setBytes (pushAddr s.sp).toNat (leBytes s.regs[rA.val])
      regs := s.regs.set SP.val (s.sp - stackDelta) SP_named }.retire (valP s 2)) := by
  simp only [execPushq, readReg_named, hA, readReg_SP, writeReg_SP, orRaise_ok, memWrite_of_wordLegal _ h]

theorem execPushq_of_not_wordLegal (rA : RegIdx) {s : State} (h : ¬ s.wordLegal (pushAddr s.sp)) :
    execPushq rA s = failed s .addressOutOfBounds := by
  obtain ho | ⟨_, h0, h8, -⟩ := execPushq_cases rA s
  · exact ho
  · exact absurd ⟨h0, h8⟩ h

/-- Settles O36: pushq is a checked store at `pushAddr` of the old stack pointer. -/
theorem pushqStoresARegister : Obligations.PushqStoresARegister := by
  refine ⟨decode_pair_pushq,
    fun rA hA s hlo hhi => execPushq_of_wordLegal hA ((wordLegal_pushAddr_iff s).2 ⟨hlo, hhi⟩),
    fun rA s hbad => ?_, fun f => decode_singleton_pair (c := .push) rfl (by decide)⟩
  rcases hbad with rfl | hbad
  · exact (execPushq_failed_or_named 15 s).resolve_right (by decide)
  · exact execPushq_of_not_wordLegal rA (mt (wordLegal_pushAddr_iff s).1 (by omega))

theorem execPopq_of_wordLegal {rA : RegIdx} {s : State} (hA : rA.val < numRegs) (h : s.wordLegal s.sp.toInt) :
    execPopq rA s = .next ({ s with
      regs := (s.regs.set SP.val (s.sp + stackDelta) SP_named).set rA.val (s.wordAt s.sp.toInt.toNat) }.retire
        (valP s 2)) := by
  simp only [execPopq, readReg_SP, writeReg_SP, writeReg_named, hA, orRaise_ok, popAddr, memRead_of_wordLegal h]

theorem execPopq_of_not_wordLegal (rA : RegIdx) {s : State} (h : ¬ s.wordLegal s.sp.toInt) :
    execPopq rA s = failed s .addressOutOfBounds := by
  obtain ho | ⟨_, h0, h8, -⟩ := execPopq_cases rA s
  · exact ho
  · exact absurd ⟨h0, h8⟩ h

/-- popq of the stack pointer itself: the second write is to the same register. -/
theorem execPopq_SP_of_wordLegal {s : State} (h : s.wordLegal s.sp.toInt) :
    execPopq SP s = .next ({ s with regs := s.regs.set SP.val (s.wordAt s.sp.toInt.toNat) SP_named }.retire
      (valP s 2)) := by
  rw [execPopq_of_wordLegal SP_named h, Vector.set_set]

/-- Settles O37: popq is a checked load at the old stack pointer, with the stack pointer written first. -/
theorem popqLoadsARegister : Obligations.PopqLoadsARegister := by
  refine ⟨decode_pair_popq, fun rA hA s _ h => execPopq_of_wordLegal hA h, fun s h => execPopq_SP_of_wordLegal h,
    fun rA s hbad => ?_, fun f => decode_singleton_pair (c := .pop) rfl (by decide)⟩
  rcases hbad with rfl | hbad
  · exact (execPopq_failed_or_named 15 s).resolve_right (by decide)
  · exact execPopq_of_not_wordLegal rA hbad

end Sys2Proof.Machine
end

section
/-! The proofs about register fields of 15, the stack's round trips, and the frames (R421, R423, R434). -/

namespace Sys2Proof.Machine

/-! ## Register fields of 15 (R102) -/

theorem not_named_of_wf_false {r : RegIdx} (h : RegIdx.named r = false) : ¬ r.val < numRegs := by
  rw [← named_iff, h]; decide

theorem not_both_named_of_wf_false {rA rB : RegIdx} (h : (RegIdx.named rA && RegIdx.named rB) = false) :
    ¬ (rA.val < numRegs ∧ rB.val < numRegs) := by
  rw [← named_and_iff, h]; decide

theorem exec_of_wf_false {i : Instr} (s : State) (h : i.wf = false) : exec i s = failed s .addressOutOfBounds := by
  cases i with
  | halt | nop | jmp | jle | jl | je | jne | jge | jg | call | ret => cases h
  | rrmovq rA rB | cmovle rA rB | cmovl rA rB | cmove rA rB | cmovne rA rB | cmovge rA rB | cmovg rA rB =>
    exact (moveIf_failed_or_named _ rA rB s).resolve_right (not_both_named_of_wf_false h)
  | addq rA rB | subq rA rB | andq rA rB | xorq rA rB =>
    exact (aluOp_failed_or_named _ rA rB s).resolve_right (not_both_named_of_wf_false h)
  | irmovq rB v =>
    exact (execIrmovq_cases rB v s).resolve_right fun ⟨hB, _⟩ => not_named_of_wf_false h hB
  | rmmovq rA rB d => exact (execRmmovq_failed_or_named rA rB d s).resolve_right (not_both_named_of_wf_false h)
  | mrmovq rA rB d => exact (execMrmovq_failed_or_named rA rB d s).resolve_right (not_both_named_of_wf_false h)
  | pushq rA => exact (execPushq_failed_or_named rA s).resolve_right (not_named_of_wf_false h)
  | popq rA => exact (execPopq_failed_or_named rA s).resolve_right (not_named_of_wf_false h)

/-- A step that completes: no error, one more cycle, and still the same status or Halted. -/
def Completes (o : StepOutcome) (s : State) : Prop :=
  ∃ t, o = .next t ∧ t.err = s.err ∧ t.cycleCount = s.cycleCount + 1 ∧ (t.status = s.status ∨ t.status = .halted)

theorem moveIf_completes (c : Cond) {rA rB : RegIdx} (s : State) (h : (RegIdx.named rA && RegIdx.named rB) = true) :
    Completes (moveIf c rA rB s) s := by
  obtain ⟨hA, hB⟩ := (named_and_iff rA rB).1 h
  exact ⟨_, moveIf_named c rA rB s hA hB, rfl, rfl, .inl rfl⟩

theorem aluOp_completes (f : AluFun) {rA rB : RegIdx} (s : State) (h : (RegIdx.named rA && RegIdx.named rB) = true) :
    Completes (aluOp f rA rB s) s := by
  obtain ⟨hA, hB⟩ := (named_and_iff rA rB).1 h
  exact ⟨_, aluOp_named f rA rB s hA hB, rfl, rfl, .inl rfl⟩

theorem jumpIf_completes (c : Cond) (dest : Word) (s : State) : Completes (jumpIf c dest s) s :=
  ⟨_, jumpIf_eq c dest s, rfl, rfl, .inl rfl⟩

theorem exec_completes {i : Instr} (s : State) (hwf : i.wf = true)
    (hclass : i.iclass ∈ [IClass.halt, IClass.nop, IClass.cmov, IClass.irmov, IClass.op, IClass.jump]) :
    Completes (exec i s) s := by
  cases i with
  | rmmovq | mrmovq | call | ret | pushq | popq => simp [Instr.iclass] at hclass
  | halt => exact ⟨_, rfl, rfl, rfl, .inr rfl⟩
  | nop => exact ⟨_, rfl, rfl, rfl, .inl rfl⟩
  | rrmovq | cmovle | cmovl | cmove | cmovne | cmovge | cmovg => exact moveIf_completes _ s hwf
  | addq | subq | andq | xorq => exact aluOp_completes _ s hwf
  | jmp dest | jle dest | jl dest | je dest | jne dest | jge dest | jg dest => exact jumpIf_completes _ dest s
  | irmovq rB v => exact ⟨_, execIrmovq_named rB ((named_iff rB).1 hwf) v s, rfl, rfl, .inl rfl⟩

/-- Settles O38: a field of 15 stops the rule of its family, and only a data access can stop it else. -/
theorem registerFifteenAlwaysFails : Obligations.RegisterFifteenAlwaysFails :=
  ⟨fun _ s h => exec_of_wf_false s h, fun _ s hwf hclass => exec_completes s hwf hclass⟩

/-! ## The stack's round trips -/

/-- The state after a push of `v`: the word lies in the new slot, and the stack pointer at it (R540, R570). -/
structure Pushed (s t : State) (v : Word) : Prop where
  slotLegal : s.wordLegal (pushAddr s.sp)
  memSize : t.memSize = s.memSize
  mem : t.mem = s.mem.setBytes (pushAddr s.sp).toNat (leBytes v)
  regs : t.regs = s.regs.set SP.val (s.sp - stackDelta) SP_named
  status : t.status = s.status

theorem execPushq_pushed {rA : RegIdx} {s t : State} (h : execPushq rA s = .next t) (ht : t.status = .running) :
    ∃ hA : rA.val < numRegs, Pushed s t s.regs[rA.val] := by
  obtain ho | ⟨hA, h0, h8, ho⟩ := execPushq_cases rA s
  all_goals obtain rfl := Host.Outcome.next.inj (ho.symm.trans h)
  · cases ht
  · exact ⟨hA, ⟨h0, h8⟩, rfl, rfl, rfl, rfl⟩

theorem execCall_pushed {dest : Word} {s t : State} (h : execCall dest s = .next t) (ht : t.status = .running) :
    Pushed s t (valP s 9) := by
  obtain ho | ⟨h0, h8, ho⟩ := execCall_cases dest s
  all_goals obtain rfl := Host.Outcome.next.inj (ho.symm.trans h)
  · cases ht
  · exact ⟨⟨h0, h8⟩, rfl, rfl, rfl, rfl⟩

namespace Pushed

variable {s t : State} {v : Word}

theorem sp (h : Pushed s t v) : t.sp = s.sp - stackDelta := by
  simp only [State.sp, h.regs, Vector.getElem_set_self]

/-- The new stack pointer is the slot's address: with 8 ≤ x[SP] the subtraction does not wrap. -/
theorem toInt_sp (h : Pushed s t v) : t.sp.toInt = pushAddr s.sp := by
  obtain ⟨h0, -⟩ := h.slotLegal
  have hmax := BitVec.toInt_lt (x := s.sp)
  have hdelta : stackDelta.toInt = 8 := by decide
  simp only [pushAddr] at h0 ⊢
  rw [h.sp, BitVec.toInt_sub, hdelta]
  exact Int.bmod_eq_of_le (by omega) (by omega)

theorem wordLegal (h : Pushed s t v) : t.wordLegal t.sp.toInt := by
  rw [h.toInt_sp, State.wordLegal, h.memSize]
  exact h.slotLegal

theorem wordAt (h : Pushed s t v) (hwf : s.mem.wf = true) : t.wordAt t.sp.toInt.toNat = v := by
  rw [wordAt_eq_getWord, h.toInt_sp, h.mem, Memory.getWord_setBytes hwf]

/-- Moving the stack pointer back gives the registers from before the push. -/
theorem regs_restored (h : Pushed s t v) : t.regs.set SP.val (t.sp + stackDelta) SP_named = s.regs := by
  rw [h.sp, BitVec.sub_add_cancel, h.regs, Vector.set_set]
  exact Vector.set_getElem_self SP_named

end Pushed

/-- Settles O39: the pop loads what the push stored and moves the stack pointer back, also when that is its rA. -/
theorem pushThenPopRestoresTheRegisters : Obligations.PushThenPopRestoresTheRegisters := by
  intro rA s t hinv hs hpush ht
  obtain ⟨hA, hpushed⟩ := execPushq_pushed hpush ht
  refine ⟨_, execPopq_of_wordLegal hA hpushed.wordLegal, ?_, ht⟩
  rw [retire_regs]
  simp only [hpushed.regs_restored, hpushed.wordAt hinv.memCanonical, Vector.set_getElem_self]

/-- Settles O40: ret loads the return address that call stored and moves the stack pointer back. -/
theorem callThenRetReturns : Obligations.CallThenRetReturns := by
  intro dest s t hinv hs hcall ht
  have hpushed := execCall_pushed hcall ht
  exact ⟨_, execRet_of_wordLegal hpushed.wordLegal, hpushed.wordAt hinv.memCanonical, hpushed.regs_restored, ht⟩

/-! ## Frames -/

/-- The cycle raised: only status and err changed (R434). -/
def RaisedFrom (s t : State) : Prop := ∃ e, t = { s with status := .errored, err := some e }

/-- The frame of a cycle that writes no memory. -/
def KeepsMemory (i : Instr) (s t : State) : Prop :=
  RaisedFrom s t ∨ (Framed i s t ∧ t.mem = s.mem ∧ t.cycleCount = s.cycleCount + 1)

theorem KeepsMemory.byte_eq {i : Instr} {s t : State} (h : KeepsMemory i s t) (a : Nat) : t.byte a = s.byte a := by
  obtain ⟨e, rfl⟩ | ⟨-, hmem, -⟩ := h
  · rfl
  · exact congrArg (·.get a) hmem

theorem framed_of_regs_eq {i : Instr} {s t : State} (hsize : t.memSize = s.memSize) (herr : t.err = s.err)
    (hstatus : i ≠ .halt → t.status = s.status) (hflags : t.flags = s.flags) (hregs : t.regs = s.regs) :
    Framed i s t where
  memSize := hsize
  err := herr
  status := hstatus
  flags _ := hflags
  regs k hk _ := by simp only [hregs]

theorem framed_of_regs_set {i : Instr} {s t : State} {r : RegIdx} {v : Word} (hr : r.val < numRegs)
    (hdest : r ∈ destinations i) (hsize : t.memSize = s.memSize) (herr : t.err = s.err) (hstatus : t.status = s.status)
    (hflags : i.iclass ≠ .op → t.flags = s.flags) (hregs : t.regs = s.regs.set r.val v) : Framed i s t where
  memSize := hsize
  err := herr
  status _ := hstatus
  flags := hflags
  regs k hk hne := by simp only [hregs, Vector.getElem_set_ne hr hk (hne r hdest)]

theorem moveIf_keepsMemory {i : Instr} {c : Cond} {rA rB : RegIdx} {s t : State} (hdest : rB ∈ destinations i)
    (h : moveIf c rA rB s = .next t) : KeepsMemory i s t := by
  obtain ho | ⟨_, hB, ho⟩ := moveIf_cases c rA rB s
  all_goals obtain rfl := Host.Outcome.next.inj (ho.symm.trans h)
  · exact .inl ⟨_, rfl⟩
  · exact .inr ⟨framed_of_regs_set hB hdest rfl rfl rfl (fun _ => rfl) rfl, rfl, rfl⟩

theorem aluOp_keepsMemory {i : Instr} {f : AluFun} {rA rB : RegIdx} {s t : State} (hdest : rB ∈ destinations i)
    (hclass : i.iclass = .op) (h : aluOp f rA rB s = .next t) : KeepsMemory i s t := by
  obtain ho | ⟨_, hB, ho⟩ := aluOp_cases f rA rB s
  all_goals obtain rfl := Host.Outcome.next.inj (ho.symm.trans h)
  · exact .inl ⟨_, rfl⟩
  · exact .inr ⟨framed_of_regs_set hB hdest rfl rfl rfl (absurd hclass) rfl, rfl, rfl⟩

theorem jumpIf_keepsMemory (i : Instr) {c : Cond} {dest : Word} {s t : State} (h : jumpIf c dest s = .next t) :
    KeepsMemory i s t := by
  obtain rfl := Host.Outcome.next.inj h
  exact .inr ⟨framed_of_regs_eq rfl rfl (fun _ => rfl) rfl rfl, rfl, rfl⟩

theorem execHalt_keepsMemory {s t : State} (h : execHalt s = .next t) : KeepsMemory .halt s t := by
  obtain rfl := Host.Outcome.next.inj h
  exact .inr ⟨framed_of_regs_eq rfl rfl (absurd rfl) rfl rfl, rfl, rfl⟩

theorem execNop_keepsMemory {s t : State} (h : execNop s = .next t) : KeepsMemory .nop s t := by
  obtain rfl := Host.Outcome.next.inj h
  exact .inr ⟨framed_of_regs_eq rfl rfl (fun _ => rfl) rfl rfl, rfl, rfl⟩

theorem execIrmovq_keepsMemory {rB : RegIdx} {v : Word} {s t : State} (h : execIrmovq rB v s = .next t) :
    KeepsMemory (.irmovq rB v) s t := by
  obtain ho | ⟨hB, ho⟩ := execIrmovq_cases rB v s
  all_goals obtain rfl := Host.Outcome.next.inj (ho.symm.trans h)
  · exact .inl ⟨_, rfl⟩
  · exact .inr ⟨framed_of_regs_set hB (.head _) rfl rfl rfl (fun _ => rfl) rfl, rfl, rfl⟩

theorem execMrmovq_keepsMemory {rA rB : RegIdx} {d : Word} {s t : State} (h : execMrmovq rA rB d s = .next t) :
    KeepsMemory (.mrmovq rA rB d) s t := by
  obtain ho | ⟨hA, _, _, _, ho⟩ := execMrmovq_cases rA rB d s
  all_goals obtain rfl := Host.Outcome.next.inj (ho.symm.trans h)
  · exact .inl ⟨_, rfl⟩
  · exact .inr ⟨framed_of_regs_set hA (.head _) rfl rfl rfl (fun _ => rfl) rfl, rfl, rfl⟩

theorem execRet_keepsMemory {s t : State} (h : execRet s = .next t) : KeepsMemory .ret s t := by
  obtain ho | ⟨_, _, ho⟩ := execRet_cases s
  all_goals obtain rfl := Host.Outcome.next.inj (ho.symm.trans h)
  · exact .inl ⟨_, rfl⟩
  · exact .inr ⟨framed_of_regs_set SP_named (.head _) rfl rfl rfl (fun _ => rfl) rfl, rfl, rfl⟩

/-- popq's two writes are to its two destinations. -/
theorem execPopq_keepsMemory {rA : RegIdx} {s t : State} (h : execPopq rA s = .next t) :
    KeepsMemory (.popq rA) s t := by
  obtain ho | ⟨hA, _, _, ho⟩ := execPopq_cases rA s
  all_goals obtain rfl := Host.Outcome.next.inj (ho.symm.trans h)
  · exact .inl ⟨_, rfl⟩
  · refine .inr ⟨⟨rfl, rfl, fun _ => rfl, fun _ => rfl, fun k hk hne => ?_⟩, rfl, rfl⟩
    rw [retire_regs]
    exact (Vector.getElem_set_ne hA hk (hne rA (.tail _ (.head _)))).trans
      (Vector.getElem_set_ne SP_named hk (hne SP (.head _)))

theorem exec_keepsMemory {i : Instr} {s t : State}
    (hclass : i.iclass ∈ [IClass.halt, IClass.nop, IClass.cmov, IClass.irmov, IClass.mrmov, IClass.op, IClass.jump,
      IClass.ret, IClass.pop]) (h : exec i s = .next t) : KeepsMemory i s t := by
  cases i with
  | rmmovq | call | pushq => simp [Instr.iclass] at hclass
  | halt => exact execHalt_keepsMemory h
  | nop => exact execNop_keepsMemory h
  | rrmovq | cmovle | cmovl | cmove | cmovne | cmovge | cmovg => exact moveIf_keepsMemory (.head _) h
  | addq | subq | andq | xorq => exact aluOp_keepsMemory (.head _) rfl h
  | jmp | jle | jl | je | jne | jge | jg => exact jumpIf_keepsMemory _ h
  | irmovq => exact execIrmovq_keepsMemory h
  | mrmovq => exact execMrmovq_keepsMemory h
  | ret => exact execRet_keepsMemory h
  | popq => exact execPopq_keepsMemory h

/-- Settles O42: the frame of each family's rule, and memory unchanged in either case of it. -/
theorem instructionsWithoutAStoreLeaveMemory : Obligations.InstructionsWithoutAStoreLeaveMemory :=
  fun _ _ _ hclass h => ⟨(exec_keepsMemory hclass h).byte_eq, exec_keepsMemory hclass h⟩

/-- What a stored word changes of the bytes of memory. -/
theorem bytes_of_store {s t : State} {a : Nat} {v : Word} (h : t.mem = s.mem.setBytes a (leBytes v)) :
    (∀ x, x < a ∨ a + 8 ≤ x → t.byte x = s.byte x) ∧
      (s.mem.wf = true → ∀ k, k < 8 → t.byte (a + k) = byteOf v k) := by
  simp only [State.byte, h]
  exact ⟨fun _ hx => get_setBytes_leBytes_outside s.mem a v hx, fun hwf _ hk => get_setBytes_leBytes hwf a v hk⟩

/-- Settles O43: rmmovq writes one word, in bounds, and no register. -/
theorem rmmovqChangesOnlyTheStoredBytes : Obligations.RmmovqChangesOnlyTheStoredBytes := by
  intro rA rB d s t h
  obtain ho | ⟨_, _, h0, h8, ho⟩ := execRmmovq_cases rA rB d s
  all_goals obtain rfl := Host.Outcome.next.inj (ho.symm.trans h)
  · exact .inl ⟨_, rfl⟩
  · refine .inr ⟨framed_of_regs_eq rfl rfl (fun _ => rfl) rfl rfl, rfl, rfl, ?_⟩
    rintro hA hB _ rfl
    exact ⟨h0, h8, bytes_of_store rfl⟩

/-- Settles O44: call and pushq write one word, in bounds, and the stack pointer. -/
theorem callAndPushqChangeOnlyTheStackSlot : Obligations.CallAndPushqChangeOnlyTheStackSlot := by
  refine ⟨fun dest s t h => ?_, fun rA s t h => ?_⟩
  · obtain ho | ⟨h0, h8, ho⟩ := execCall_cases dest s
    all_goals obtain rfl := Host.Outcome.next.inj (ho.symm.trans h)
    · exact .inl ⟨_, rfl⟩
    · refine .inr ⟨framed_of_regs_set SP_named (.head _) rfl rfl rfl (fun _ => rfl) rfl, rfl, ?_⟩
      rintro _ rfl
      exact ⟨h0, h8, bytes_of_store rfl⟩
  · obtain ho | ⟨_, h0, h8, ho⟩ := execPushq_cases rA s
    all_goals obtain rfl := Host.Outcome.next.inj (ho.symm.trans h)
    · exact .inl ⟨_, rfl⟩
    · refine .inr ⟨framed_of_regs_set SP_named (.head _) rfl rfl rfl (fun _ => rfl) rfl, rfl, ?_⟩
      rintro hA _ rfl
      exact ⟨h0, h8, bytes_of_store rfl⟩

end Sys2Proof.Machine
end
